-- ==== Sys2Proof/Word.lean ====
section
/-! DEFINITION. The two word types of the block: the 32-bit register word (R8, R9) and the octet of the key buffer (R34). -/

namespace Sys2Proof

/-- A 32-bit register value, bit 0 the least significant (R9). -/
abbrev Word := BitVec 32

/-- An octet of the key buffer, 0 .. 255 (R34, R53). -/
abbrev Byte := BitVec 8

end Sys2Proof
end

