-- ==== Sys2Proof/Syntax.lean ====
section
/-! DEFINITION. The commands of the block (R82), the host's events (R50, R93, R220) and the host-program notation (R91 to R95),
as data. -/

namespace Sys2Proof

/-- The six commands, one constructor per row of the command table (R82). `fast` is bit [8] of the word (R81). -/
inductive Instr where
  /-- `HASH` (R120). -/
  | hash
  /-- `FMIX` (R121). -/
  | fmix
  /-- `CREATE` (R140). -/
  | create (fast : Bool)
  /-- `CREATE_CAP` (R144). -/
  | createCap (fast : Bool)
  /-- `INSERT` (R166). -/
  | insert
  /-- `QUERY` (R168). -/
  | query
  deriving DecidableEq, Repr

/-- The eleven register names of 10_state.md section 8. -/
inductive RegName where
  | cmd | status | arg0 | arg1 | arg2 | arg3 | keyLen | result | numBits | numHash | mode
  deriving DecidableEq, Repr

/-- Where a host transaction lands inside the block (R51): a register, a reserved offset, or a word of the key buffer. -/
inductive Place where
  | reg (r : RegName)
  | reserved
  | keyWord (w : Nat)
  deriving DecidableEq, Repr

/-- What the host does to the block, one event a step. Offsets are byte offsets (R50). -/
inductive HostEvent where
  /-- `HostWrite(off, v)` (R50). -/
  | write (off : Nat) (v : Word)
  /-- `HostRead(off)` (R50). -/
  | read (off : Nat)
  /-- `WAIT`: read `STATUS` until bit [0] of the value read is 0 (R93, R226); each read is a step. -/
  | wait
  /-- The reset event, which may come at any time (R220). -/
  | reset
  deriving DecidableEq, Repr

/-- `<reg>` of the host-program notation (R91): a register name, a word of `KEYBUF`, or a bare offset. -/
inductive Loc where
  | reg (r : RegName)
  | keybuf (w : Nat)
  | offset (off : Nat)
  deriving DecidableEq, Repr

/-- `<bytes>` of the notation (R94): a quoted string of printable ASCII characters, or a list of octets. -/
inductive KeyLit where
  | text (cs : List Char)
  | octets (bs : List Byte)
  deriving DecidableEq, Repr

/-- The decimal literal p of `CREATE_CAP n, p, f` (R95): the number `digits / 10^scale`, negated when `negative`. -/
structure Decimal where
  negative : Bool
  digits : Nat
  scale : Nat
  deriving DecidableEq, Repr

/-- A statement of the host-program notation (R91 to R95). An omitted operand f is `none` (R95). -/
inductive Stmt where
  /-- `WR <reg>, <value>` (R91). -/
  | wr (l : Loc) (v : Int)
  /-- `RD <reg>` (R91). -/
  | rd (l : Loc)
  /-- `WAIT` (R93). -/
  | wait
  /-- `KEY <bytes>` (R94). -/
  | key (b : KeyLit)
  /-- A bare command statement (R92). -/
  | bare (i : Instr)
  /-- `HASH <bytes>`, `INSERT <bytes>`, `QUERY <bytes>` (R95). -/
  | hash (b : KeyLit)
  | insert (b : KeyLit)
  | query (b : KeyLit)
  /-- `FMIX a, b` (R95). -/
  | fmix (a b : Int)
  /-- `CREATE M, k, f` (R95). -/
  | create (m k : Int) (f : Option Bool)
  /-- `CREATE_CAP n, p, f` (R95). -/
  | createCap (n : Int) (p : Decimal) (f : Option Bool)
  deriving DecidableEq, Repr

end Sys2Proof
end

