-- ==== Sys2Proof/Decode.lean ====
section
/-! DEFINITION. The decoder, total on all 2^32 command words (R83), the encoder (R82), and the opcode table (R97). -/

namespace Sys2Proof

/-- Why a word is no command (R89). -/
inductive Illegal where
  /-- A bit of [31:9] or [7:4] is not zero. -/
  | reservedBits
  /-- `OP` is `0x0` or `0x7` .. `0xF`. -/
  | unassignedOp
  /-- `FAST` = 1 with a format-N command. -/
  | fastNotAllowed
  deriving DecidableEq, Repr

/-- What a word written to `CMD` decodes to (R83). -/
inductive Decoded where
  | command (i : Instr)
  | illegal (why : Illegal)
  deriving DecidableEq, Repr

/-- `OP` = bits [3:0] of the command word (R26, R81). -/
def opField (w : Word) : Nat := (w.extractLsb' 0 4).toNat

/-- `FAST` = bit [8] of the command word (R26, R81). -/
def fastField (w : Word) : Bool := w.getLsbD 8

/-- Bits [7:4] and [31:9], which must be zero in every command (R81). -/
def reservedZero (w : Word) : Bool := w.extractLsb' 4 4 == 0 && w.extractLsb' 9 23 == 0

/-- A format-N command (R81): illegal when bit [8] is 1. -/
def formatN (fast : Bool) (i : Instr) : Decoded := if fast then .illegal .fastNotAllowed else .command i

/-- R83, arm by arm. -/
def decode (w : Word) : Decoded :=
  if reservedZero w then
    match opField w with
    | 0x1 => formatN (fastField w) .hash
    | 0x2 => formatN (fastField w) .fmix
    | 0x3 => .command (.create (fastField w))
    | 0x4 => .command (.createCap (fastField w))
    | 0x5 => formatN (fastField w) .insert
    | 0x6 => formatN (fastField w) .query
    | _ => .illegal .unassignedOp
  else .illegal .reservedBits

/-- A format-F word (R81): `OP` in [3:0], `FAST` in [8], every other bit zero. -/
def formatF (op : Word) (fast : Bool) : Word := if fast then op ||| 0x00000100#32 else op

/-- The word of a command (the table of R82). -/
def encode : Instr → Word
  | .hash => 0x00000001#32
  | .fmix => 0x00000002#32
  | .create fast => formatF 0x00000003#32 fast
  | .createCap fast => formatF 0x00000004#32 fast
  | .insert => 0x00000005#32
  | .query => 0x00000006#32

/-- One row of `opcode_table.json` (R97): a word selects it when `w AND mask = pattern` (R83). -/
structure OpcodeRow where
  mnemonic : String
  pattern : Word
  mask : Word
  deriving DecidableEq, Repr

/-- The six rows of `opcode_table.json` (R97). -/
def opcodeTable : List OpcodeRow :=
  [ ⟨"HASH", 0x00000001#32, 0xFFFFFFFF#32⟩,
    ⟨"FMIX", 0x00000002#32, 0xFFFFFFFF#32⟩,
    ⟨"CREATE", 0x00000003#32, 0xFFFFFEFF#32⟩,
    ⟨"CREATE_CAP", 0x00000004#32, 0xFFFFFEFF#32⟩,
    ⟨"INSERT", 0x00000005#32, 0xFFFFFFFF#32⟩,
    ⟨"QUERY", 0x00000006#32, 0xFFFFFFFF#32⟩ ]

/-- The row of `opcodeTable` that a command stands for. -/
def Instr.mnemonic : Instr → String
  | .hash => "HASH"
  | .fmix => "FMIX"
  | .create _ => "CREATE"
  | .createCap _ => "CREATE_CAP"
  | .insert => "INSERT"
  | .query => "QUERY"

/-- A word selects a row (R83). -/
def OpcodeRow.selects (r : OpcodeRow) (w : Word) : Bool := w &&& r.mask == r.pattern

/-- The command word of an instruction of `nbits` bits with value `w`, bits numbered as `opcode_table.json` numbers them: a
command is one 32-bit word (R80), so the bits above `nbits` are zero and there is no byte order to lay out. -/
def tableWord (nbits w : Nat) : Word := BitVec.ofNat 32 (w % 2 ^ nbits)

/-- The instruction the decoder reads from such a word, `none` where it refuses. -/
def decodeTableWord (nbits w : Nat) : Option Instr :=
  match decode (tableWord nbits w) with
  | .command i => some i
  | .illegal _ => none

end Sys2Proof
end

