-- ==== Sys2Proof/Config.lean ====
section
/-! DEFINITION. What an implementation fixes (R8: `M_MAX`, `KEY_MAX`, `SIZING`) and the free values: the values the spec leaves
open, each an opaque constant, so that nothing can be proved of it and a claim holds whatever it is. -/

namespace Sys2Proof

/-- One known value of the function `SIZING` of R145: `SIZING(n, p) = (m, k)`, mathematical integers. -/
structure SizingRow where
  n : Int
  p : BitVec 64
  m : Int
  k : Int
  deriving DecidableEq, Repr

/-- Which `SIZING` (R145, R146) the implementation has: the spec's default `SIZING_REF`, or another function of (n, P), of which
the rows are known and every other value is open (`Config.sizing`). -/
inductive SizingChoice where
  | reference
  | other (rows : List SizingRow)
  deriving DecidableEq, Repr

/-- The parameters of R8. `BUS_PROTOCOL` is read by no rule (D1) and has no field. -/
structure Params where
  /-- `M_MAX`: the number of bits the bit-array storage holds. -/
  mMax : Nat
  /-- `KEY_MAX`: the size of the key buffer in bytes. -/
  keyMax : Nat
  /-- `SIZING`: the function of capacity-derived construction. -/
  sizing : SizingChoice
  deriving DecidableEq, Repr

/-- The values R8 gives in brackets, which 95_test_vectors.md uses throughout, with the default `SIZING_REF` of R145.
DESIGN CHOICE (log entries 4 and 5). -/
def Params.vectors : Params := { mMax := 2147483647, keyMax := 256, sizing := .reference }

/-- FREE VALUE. A `SIZING` other than `SIZING_REF` where no known row gives it (R146: only that it is a function of (n, P)
alone). -/
opaque Config.sizing : Int → BitVec 64 → Int × Int

/-- FREE VALUE. The byte of `KEYBUF` at an index that nothing has written since the reset of that number (R34, U3). -/
opaque Config.keyByteAtReset : Nat → Nat → Byte

/-- FREE VALUE. What the draw of that number, a read other than `STATUS` while `BUSY` = 1, returns (R228, U4). -/
opaque Config.busyRead : Nat → Word

end Sys2Proof
end

