-- ==== Sys2Proof/Machine/State.lean ====
section
/-! DEFINITION. The state of the block (R20, 10_state.md), the state after reset (R38, R220), and the reasons a step can stop. -/

namespace Sys2Proof.Machine

/-- The completion codes of R190, in the order of their numbers 0 to 5; codes 6 to 15 are never written. -/
inductive Code where
  | ok | invalidArgument | noFilter | capacityExceeded | illegalCommand | keyTooLong
  deriving DecidableEq, Repr

/-- The two agents of R20. -/
inductive Agent where
  | host | block
  deriving DecidableEq, Repr

/-- Nothing stops the block: an error is a completion code (R190, R197), and "no other failure modes exist" (R196). -/
inductive Fault where
  deriving DecidableEq, Repr

/-- Why a step has no meaning. Every reason but the first is about a HOST TRANSACTION, never about a command. -/
inductive Refusal where
  /-- `exec`, for an instruction that has no meaning yet: no arm answers it. Safe. -/
  | notModelled (mnemonic : String)
  /-- The port, for an offset that is not a multiple of 4, which it cannot carry (R50, U13). Safe. -/
  | unalignedOffset (off : Nat)
  /-- The port, for an offset at or above `0x100 + KEY_MAX`, which is outside the block (R58, U13). Safe. -/
  | offsetOutsideBlock (off : Nat)
  deriving DecidableEq, Repr

/-- The state of the block (R20), in the order of 10_state.md, then the model's own fields. -/
structure State where
  /-- The parameters `M_MAX`, `KEY_MAX`, `SIZING` (R8); no step changes them (log entry 4). -/
  params : Params
  /-- `ARG0` (R21). -/
  arg0 : Word
  /-- `ARG1` (R21). -/
  arg1 : Word
  /-- `ARG2` (R21). -/
  arg2 : Word
  /-- `ARG3` (R21). -/
  arg3 : Word
  /-- `KEY_LEN` (R21, R32). -/
  keyLen : Word
  /-- `RESULT` (R21). -/
  result : Word
  /-- `NUM_BITS` (R28). -/
  numBits : Word
  /-- `NUM_HASH` (R29). -/
  numHash : Word
  /-- `MODE.FAST` (R30). -/
  fast : Bool
  /-- `STATUS.VALID` (R24). -/
  valid : Bool
  /-- `STATUS.ERR` (R25). -/
  err : Code
  /-- `KEYBUF` (R34): the bytes written since reset, by rising index; a byte not listed is unspecified (U3). -/
  keybuf : List Host.Cell
  /-- `BITS` (R35, R54): the 32-bit words that are not zero, by rising index. -/
  bits : List (Nat × Word)
  /-- The word of the pending command (R37, R229); `STATUS.BUSY` (R23) is 1 exactly when there is one. -/
  pending : Option Word
  /-- MODEL'S OWN: how many reset events there have been (log entry 7). -/
  resets : Nat
  /-- MODEL'S OWN: how many unspecified values have been read while busy (log entry 9). -/
  draws : Nat
  /-- MODEL'S OWN: the events the host has issued and the block has not served, oldest first (R20, R22; log entry 1). -/
  inbox : List HostEvent
  /-- MODEL'S OWN: who moves at the next steps while a command is pending; the block when empty (R229; log entry 3). -/
  schedule : List Agent
  /-- MODEL'S OWN: what the host's last read returned (R50; log entry 14). -/
  readData : Word
  deriving DecidableEq, Repr

/-- Right after reset (R38, R220): every register 0, no filter, `KEYBUF` unspecified (nothing listed, U3), `BITS` unspecified and
unobservable (nothing listed, U5; log entry 10), no command pending, no event issued. Parameters: log entry 4. -/
def State.reset : State :=
  { params := Params.vectors
    arg0 := 0, arg1 := 0, arg2 := 0, arg3 := 0, keyLen := 0, result := 0
    numBits := 0, numHash := 0, fast := false
    valid := false, err := .ok
    keybuf := [], bits := []
    pending := none
    resets := 0, draws := 0, inbox := [], schedule := [], readData := 0 }

end Sys2Proof.Machine
end

