-- ==== Sys2Proof/Machine/Flags.lean ====
section
/-! DEFINITION. The status flags: the numbers of the completion codes (R190) and the layout of `STATUS` (R27). -/

namespace Sys2Proof.Machine

/-- The 4-bit number of a completion code (R190). -/
def Code.number : Code → BitVec 4
  | .ok => 0
  | .invalidArgument => 1
  | .noFilter => 2
  | .capacityExceeded => 3
  | .illegalCommand => 4
  | .keyTooLong => 5

/-- `STATUS.BUSY` (R23): a command is pending. -/
def State.busy (s : State) : Bool := s.pending.isSome

/-- `STATUS` as read (R27, R184): `0x000000 ++ ERR[3:0] ++ 00 ++ VALID ++ BUSY`. -/
def State.statusWord (s : State) : Word :=
  (0 : BitVec 24) ++ s.err.number ++ (0 : BitVec 2) ++ BitVec.ofBool s.valid ++ BitVec.ofBool s.busy

/-- `MODE` as read (R30, R183): `zext_32(FAST)`. -/
def State.modeWord (s : State) : Word := (BitVec.ofBool s.fast).zeroExtend 32

/-- A boolean result (R88): `0x00000001` or `0x00000000`. -/
def boolWord (b : Bool) : Word := if b then 1 else 0

end Sys2Proof.Machine
end

