-- ==== Sys2Proof/Machine/Ops.lean ====
section
/-! DEFINITION. The named operations over memory and registers: the sparse memories (R34, R54), the completion of a command and
`raise` (R197), construction (R142), and reset (R220). -/

namespace Sys2Proof.Machine

/-- What a memory lists at an address. -/
def Memory.read? {α : Type} : List (Nat × α) → Nat → Option α
  | [], _ => none
  | (b, v) :: m, a => if a = b then some v else Memory.read? m a

/-- List a value at an address, in place, keeping the addresses rising. -/
def Memory.put {α : Type} (a : Nat) (v : α) : List (Nat × α) → List (Nat × α)
  | [] => [(a, v)]
  | (b, w) :: m =>
    if a < b then (a, v) :: (b, w) :: m
    else if a = b then (a, v) :: m
    else (b, w) :: Memory.put a v m

/-- Take an address off the list. -/
def Memory.erase {α : Type} (m : List (Nat × α)) (a : Nat) : List (Nat × α) := m.filter fun e => e.1 != a

/-- Store a value: the value an unlisted address reads as removes the entry, so equal contents are equal lists. -/
def Memory.write {α : Type} [DecidableEq α] (unlisted : Option α) (m : List (Nat × α)) (a : Nat) (v : α) : List (Nat × α) :=
  if unlisted = some v then Memory.erase m a else Memory.put a v m

/-- The canonical form: addresses strictly rising, no entry equal to what an unlisted address reads as. -/
abbrev Memory.wf {α : Type} [DecidableEq α] (unlisted : Option α) (m : List (Nat × α)) : Prop :=
  m.Pairwise (fun x y => x.1 < y.1) ∧ ∀ e ∈ m, unlisted ≠ some e.2

/-- An unlisted byte of `KEYBUF` has not been written since reset: it holds no value the model knows (R34, U3). -/
def unlistedKey : Option Byte := none

/-- An unlisted word of `BITS` is zero (R54). -/
def unlistedBits : Option Word := some 0

/-- `KEYBUF[i]` (R53): the byte written there, or the free value of this reset (U3; log entry 7). -/
def State.keyByte (s : State) (i : Nat) : Byte :=
  match Memory.read? s.keybuf i with
  | some b => b
  | none => Config.keyByteAtReset s.resets i

/-- `KEYBUF[i] <- b` (R52). -/
def State.setKeyByte (s : State) (i : Nat) (b : Byte) : State :=
  { s with keybuf := Memory.write unlistedKey s.keybuf i b }

/-- Byte j of a word: bits [8·j + 7 : 8·j] (R52, R55). -/
def laneByte (v : Word) (j : Nat) : Byte := v.extractLsb' (8 * j) 8

/-- Four bytes as a word, the first the least significant (R52, R55, R111). -/
def packBytes (b0 b1 b2 b3 : Byte) : Word := b3 ++ b2 ++ b1 ++ b0

/-- Word w of the key buffer as the host reads it (R52). -/
def State.keyWord (s : State) (w : Nat) : Word :=
  packBytes (s.keyByte (4 * w)) (s.keyByte (4 * w + 1)) (s.keyByte (4 * w + 2)) (s.keyByte (4 * w + 3))

/-- The host's write of word w of the key buffer (R52). -/
def State.setKeyWord (s : State) (w : Nat) (v : Word) : State :=
  (((s.setKeyByte (4 * w) (laneByte v 0)).setKeyByte (4 * w + 1) (laneByte v 1)).setKeyByte (4 * w + 2)
    (laneByte v 2)).setKeyByte (4 * w + 3) (laneByte v 3)

/-- Word j of the bit array (R54). -/
def bitsWord (m : List (Nat × Word)) (j : Nat) : Word :=
  match Memory.read? m j with
  | some w => w
  | none => 0

/-- `BITS[p]` (R54): `WORDS[p >> 5][p & 31]`. -/
def bitAt (m : List (Nat × Word)) (p : Nat) : Bool := (bitsWord m (p / 32)).getLsbD (p % 32)

/-- `BITS[p] <- 1` (R54): `WORDS[p >> 5] <- WORDS[p >> 5] OR (1 << (p & 31))`. -/
def setBit (m : List (Nat × Word)) (p : Nat) : List (Nat × Word) :=
  Memory.write unlistedBits m (p / 32) (bitsWord m (p / 32) ||| (1#32 <<< (p % 32)))

/-- The end of a command (R80): `STATUS.ERR` is written and `STATUS.BUSY` cleared. -/
def State.complete (s : State) (c : Code) : State := { s with err := c, pending := none }

/-- `raise X` (R197), the one exception of the block: `STATUS.ERR` and `STATUS.BUSY` change and nothing else. No state is saved
and control goes nowhere, so there is no return from it (R199). -/
def raise (c : Code) (s : State) : Host.Outcome State Fault Refusal := .next (s.complete c)

/-- `STATUS.ERR <- OK; done` (R11). -/
def done (s : State) : Host.Outcome State Fault Refusal := .next (s.complete .ok)

/-- `RESULT <- v` (R21). -/
def State.setResult (s : State) (v : Word) : State := { s with result := v }

/-- `construct(M, k, fast)` (R142), less its `STATUS.ERR`, which `done` writes. The storage is held as exactly M bits, all 0 (U5). -/
def State.construct (s : State) (m k : Int) (fast : Bool) : State :=
  { s with bits := [], numBits := BitVec.ofInt 32 m, numHash := BitVec.ofInt 32 k, fast := fast, valid := true }

/-- The reset event (R220): every register at its reset value, `KEYBUF` and `BITS` unspecified anew, a command in progress
abandoned. The parameters and the host's own side (its events, the schedule, its last read) are not the block's. -/
def State.resetBlock (s : State) : State :=
  { State.reset with
    params := s.params, resets := s.resets + 1, draws := s.draws
    inbox := s.inbox, schedule := s.schedule, readData := s.readData }

end Sys2Proof.Machine
end

