-- ==== Sys2Proof/Machine/Operands.lean ====
section
/-! DEFINITION. The operands of the commands (R84 to R87): signed integers, the probability, the key. -/

namespace Sys2Proof.Machine

/-- `s(v)` (R9): the two's complement reading. -/
def signed (v : Word) : Int := v.toInt

/-- `u(v)` (R9): the unsigned reading. -/
def unsigned (v : Word) : Nat := v.toNat

/-- M of `CREATE` and n of `CREATE_CAP`: `s(ARG0)` (R85). -/
def State.sizeOperand (s : State) : Int := signed s.arg0

/-- k of `CREATE`: `s(ARG1)` (R85). -/
def State.hashCountOperand (s : State) : Int := signed s.arg1

/-- P of `CREATE_CAP`: `ARG3 ++ ARG2` (R86). -/
def State.probabilityOperand (s : State) : BitVec 64 := s.arg3 ++ s.arg2

/-- The accepted patterns of P (R86): `0x0000000000000001 ≤ u(P) ≤ 0x3FEFFFFFFFFFFFFF`. -/
def inOpenUnit (p : BitVec 64) : Bool :=
  decide (0x0000000000000001 ≤ p.toNat) && decide (p.toNat ≤ 0x3FEFFFFFFFFFFFFF)

/-- The biased exponent, bits [62:52] of a binary64 pattern (R86). -/
def binary64Exponent (p : BitVec 64) : Nat := (p.extractLsb' 52 11).toNat

/-- The fraction, bits [51:0] of a binary64 pattern (R86). -/
def binary64Fraction (p : BitVec 64) : Nat := (p.extractLsb' 0 52).toNat

/-- The number a binary64 pattern stands for (R86, G3): `none` for the infinities and the NaNs (exponent all ones). -/
def binary64Value (p : BitVec 64) : Option ℚ :=
  let e := binary64Exponent p
  let f := binary64Fraction p
  let magnitude : ℚ := if e = 0 then (f : ℚ) * 2 ^ (-1074 : ℤ) else ((2 ^ 52 + f : Nat) : ℚ) * 2 ^ ((e : ℤ) - 1075)
  if e = 2047 then none else some (if p.getLsbD 63 then -magnitude else magnitude)

/-- A key command's length check (R87, R195): `u(KEY_LEN) > KEY_MAX`. -/
def State.keyTooLong (s : State) : Bool := decide (s.params.keyMax < unsigned s.keyLen)

/-- `KEY` (R53): `KEYBUF[0]`, …, `KEYBUF[KEY_LEN − 1]`. -/
def State.key (s : State) : List Byte := (List.range (unsigned s.keyLen)).map s.keyByte

end Sys2Proof.Machine
end

