-- ==== Sys2Proof/Machine/Logarithm.lean ====
section
/-! DEFINITION. Fixed-point logarithms of any precision, the bounds of `M = ceil(−n · ln p / (ln 2)²)` (R145) they give, and the proof
that the bounds hold over the reals. The proof stands here, and not among the laws, because the type of M (`Machine.sizingM`) needs it. -/

namespace Sys2Proof.Machine

/-! ### Definitions -/

/-- What 1 is in the fixed-point logarithms of this many bits. -/
@[irreducible] def lnScale (bits : Nat) : Nat := 2 ^ bits

/-- How many terms of the series below that takes: each is less than an eighth of the one before. -/
@[irreducible] def lnTerms (bits : Nat) : Nat := bits / 3 + 1

/-- `Σ_{i < steps} w^i / (2i + 1 + 2·from)` with `w = a²/b²`, as a fraction (numerator, denominator), by Horner's rule. -/
def artanhSum (a b : Nat) : (steps start : Nat) → Nat × Nat
  | 0, _ => (0, 1)
  | steps + 1, start =>
    let (num, den) := artanhSum a b steps (start + 1)
    (den * (b * b) + (2 * start + 1) * (a * a) * num, (2 * start + 1) * (b * b) * den)

/-- `floor(2^bits · 2z(1 + z²/3 + z⁴/5 + …))`, to `lnTerms bits` terms, with `z = (x − y)/(x + y)`: a lower bound of
`2^bits · ln(x/y)` for `1 ≤ x/y ≤ 2` that is less than 2 below it. -/
def lnFixed (bits x y : Nat) : Nat :=
  let a := x - y
  let b := x + y
  let sum := artanhSum a b (lnTerms bits) 0
  2 * a * sum.1 * lnScale bits / (b * sum.2)

/-- The significand of a binary64 pattern below 1 and the exponent E with `p = f · 2^(−E)` (R86). -/
def binary64Parts (p : BitVec 64) : Nat × Nat :=
  let e := binary64Exponent p
  if e = 0 then (binary64Fraction p, 1074) else (2 ^ 52 + binary64Fraction p, 1075 - e)

/-- Bounds (lo, hi) of `2^bits · (−ln p)` for 0 < p < 1: with `f = m · 2^b`, `1 ≤ m < 2`, it is `(E − b)·ln 2 − ln m`. -/
def negLnBounds (bits : Nat) (p : BitVec 64) : Int × Int :=
  let f := (binary64Parts p).1
  let b := Nat.log2 f
  let lnM : Int := lnFixed bits f (2 ^ b)
  let ln2 : Int := lnFixed bits 2 1
  let times : Int := (binary64Parts p).2 - b
  (times * ln2 - (lnM + 2), times * (ln2 + 2) - lnM)

/-- `ceil(a / b)` for b > 0. -/
def ceilDiv (a b : Int) : Int := -((-a) / b)

/-- Bounds (lo, hi) of `M = ceil(−n · ln p / (ln 2)²)` (R145), from the bounds of the logarithms. -/
def sizingMBounds (bits : Nat) (n : Int) (p : BitVec 64) : Int × Int :=
  let one : Int := lnScale bits
  let ln2 : Int := lnFixed bits 2 1
  let ln := negLnBounds bits p
  (ceilDiv (n * ln.1 * one) ((ln2 + 2) * (ln2 + 2)), ceilDiv (n * ln.2 * one) (ln2 * ln2))

/-- At this precision the bounds fix M. -/
abbrev sizingSettled (bits : Nat) (n : Int) (p : BitVec 64) : Prop :=
  65 ≤ bits ∧ 1 ≤ n ∧ inOpenUnit p = true ∧ (sizingMBounds bits n p).1 = (sizingMBounds bits n p).2

/-! ### The fixed-point logarithms bound the real ones -/

/-- Integer division rounds down. -/
theorem int_div_eq_floor (a : Int) {b : Int} (hb : 0 < b) : a / b = ⌊(a : ℝ) / b⌋ := by
  rw [Int.floor_div_cast_of_nonneg hb.le, Int.floor_intCast]

/-- `ceilDiv` rounds up. -/
theorem ceilDiv_eq_ceil (a : Int) {b : Int} (hb : 0 < b) : ceilDiv a b = ⌈(a : ℝ) / b⌉ := by
  rw [ceilDiv, int_div_eq_floor _ hb, ← Int.ceil_neg]
  congr 1; push_cast; ring

/-- Horner's rule computes the sum. -/
theorem artanhSum_eq (a b : Nat) (hb : 0 < b) (steps start : Nat) :
    0 < (artanhSum a b steps start).2 ∧
    ((artanhSum a b steps start).1 : ℝ) / (artanhSum a b steps start).2 =
      ∑ i ∈ Finset.range steps, (((a : ℝ) / b) ^ 2) ^ i / (2 * ((start : ℝ) + i) + 1) := by
  induction steps generalizing start with
  | zero => simp [artanhSum]
  | succ steps ih =>
    obtain ⟨h1, h2⟩ := ih (start + 1)
    simp only [artanhSum]
    generalize artanhSum a b steps (start + 1) = nd at *
    obtain ⟨num, den⟩ := nd
    simp only at *
    refine ⟨by positivity, ?_⟩
    have hd : (den : ℝ) ≠ 0 := by positivity
    have hb' : (b : ℝ) ≠ 0 := by positivity
    rw [Finset.sum_range_succ']
    have shift : ∑ i ∈ Finset.range steps, (((a : ℝ) / b) ^ 2) ^ (i + 1) / (2 * ((start : ℝ) + ((i + 1 : ℕ) : ℝ)) + 1) =
        ((a : ℝ) / b) ^ 2 * ∑ i ∈ Finset.range steps, (((a : ℝ) / b) ^ 2) ^ i / (2 * (((start + 1 : ℕ) : ℝ) + i) + 1) := by
      rw [Finset.mul_sum]
      refine Finset.sum_congr rfl fun i _ => ?_
      push_cast
      rw [pow_succ, show 2 * ((start : ℝ) + (i + 1)) + 1 = 2 * (start + 1 + i) + 1 by ring]
      ring
    rw [shift, ← h2]
    push_cast
    have hs : 2 * (start : ℝ) + 1 ≠ 0 := by positivity
    simp only [pow_zero, add_zero]
    field_simp
    ring

/-- The precision is positive. -/
theorem lnScale_pos (bits : Nat) : 0 < lnScale bits := by unfold lnScale; positivity

/-- There are enough terms for the precision. -/
theorem lnScale_le_terms (bits : Nat) : (lnScale bits : ℝ) * (1 / 9) ^ lnTerms bits ≤ 1 := by
  unfold lnScale lnTerms
  rw [one_div, inv_pow, ← div_eq_mul_inv, div_le_one (by positivity)]
  have h : 2 ^ bits ≤ 9 ^ (bits / 3 + 1) :=
    calc 2 ^ bits ≤ 2 ^ (3 * (bits / 3 + 1)) := Nat.pow_le_pow_right (by norm_num) (by omega)
      _ = 8 ^ (bits / 3 + 1) := by rw [pow_mul]; norm_num
      _ ≤ 9 ^ (bits / 3 + 1) := Nat.pow_le_pow_left (by norm_num) _
  exact_mod_cast h

/-- The partial sum of the series is a lower bound of the logarithm, and what is missing is small. -/
theorem log_series_bounds {z : ℝ} (hz0 : 0 ≤ z) (hz3 : z ≤ 1 / 3) (terms : Nat) :
    2 * ∑ i ∈ Finset.range terms, z ^ (2 * i + 1) / (2 * (i : ℝ) + 1) ≤ Real.log ((1 + z) / (1 - z)) ∧
    Real.log ((1 + z) / (1 - z)) ≤ 2 * ∑ i ∈ Finset.range terms, z ^ (2 * i + 1) / (2 * (i : ℝ) + 1) +
      (1 / 9) ^ terms * (3 / 4) := by
  have lo := Real.sum_range_le_log_div hz0 (by linarith) terms
  have hi := Real.log_div_le_sum_range_add hz0 (by linarith) (terms + 1)
  rw [Finset.sum_range_succ] at hi
  generalize ∑ i ∈ Finset.range terms, z ^ (2 * i + 1) / (2 * (i : ℝ) + 1) = S at *
  generalize Real.log ((1 + z) / (1 - z)) = l at *
  have hw : (z ^ 2) ^ terms ≤ (1 / 9) ^ terms := pow_le_pow_left₀ (by positivity) (by nlinarith) terms
  have hw0 : 0 ≤ (z ^ 2) ^ terms := by positivity
  have e1 : z ^ (2 * terms + 1) / (2 * (terms : ℝ) + 1) ≤ (1 / 9) ^ terms * (1 / 3) := by
    have h : z ^ (2 * terms + 1) ≤ (1 / 9) ^ terms * (1 / 3) := by
      rw [pow_succ, pow_mul]; exact mul_le_mul hw hz3 hz0 (by positivity)
    exact (div_le_self (by positivity) (by linarith [Nat.cast_nonneg (α := ℝ) terms])).trans h
  have hden : 8 / 9 ≤ 1 - z ^ 2 := by nlinarith
  have e2 : z ^ (2 * (terms + 1) + 1) / (1 - z ^ 2) ≤ (1 / 9) ^ terms * (1 / 27) / (8 / 9) := by
    refine div_le_div₀ (by positivity) ?_ (by norm_num) hden
    rw [show 2 * (terms + 1) + 1 = 2 * terms + 3 by ring, pow_add, pow_mul]
    refine mul_le_mul hw ?_ (by positivity) (by positivity)
    calc z ^ 3 ≤ (1 / 3) ^ 3 := pow_le_pow_left₀ hz0 hz3 3
      _ = 1 / 27 := by norm_num
  constructor <;> linarith

/-- The fixed-point logarithm is a lower bound, less than 2 below. -/
theorem lnFixed_bounds (bits x y : Nat) (hy : 0 < y) (h1 : y ≤ x) (h2 : x ≤ 2 * y) :
    (lnFixed bits x y : ℝ) ≤ (lnScale bits) * Real.log ((x : ℝ) / y) ∧ (lnScale bits) * Real.log ((x : ℝ) / y) < lnFixed bits x y + 2 := by
  set a := x - y with ha
  set b := x + y with hb
  have hbp : 0 < b := by omega
  have hbR : (0 : ℝ) < b := by exact_mod_cast hbp
  have hyR : (0 : ℝ) < y := by exact_mod_cast hy
  have haR : (a : ℝ) = x - y := by rw [ha]; push_cast [h1]; ring
  have hbR' : (b : ℝ) = x + y := by rw [hb]; push_cast; ring
  have hz3 : (a : ℝ) / b ≤ 1 / 3 := by
    rw [div_le_iff₀ hbR]
    have : 3 * a ≤ b := by omega
    have : 3 * (a : ℝ) ≤ b := by exact_mod_cast this
    linarith
  have hfrac : (1 + (a : ℝ) / b) / (1 - (a : ℝ) / b) = (x : ℝ) / y := by
    rw [show 1 + (a : ℝ) / b = (b + a) / b by field_simp, show 1 - (a : ℝ) / b = (b - a) / b by field_simp,
      div_div_div_cancel_right₀ hbR.ne', haR, hbR', show (x : ℝ) + y + (x - y) = 2 * x by ring,
      show (x : ℝ) + y - (x - y) = 2 * y by ring]
    field_simp
  obtain ⟨lo, hi⟩ := log_series_bounds (by positivity) hz3 (lnTerms bits)
  rw [hfrac] at lo hi
  obtain ⟨hdp, hsum⟩ := artanhSum_eq a b hbp (lnTerms bits) 0
  have hS : ∑ i ∈ Finset.range (lnTerms bits), ((a : ℝ) / b) ^ (2 * i + 1) / (2 * (i : ℝ) + 1) =
      (a : ℝ) / b * ((artanhSum a b (lnTerms bits) 0).1 / (artanhSum a b (lnTerms bits) 0).2) := by
    rw [hsum, Finset.mul_sum]
    refine Finset.sum_congr rfl fun i _ => ?_
    rw [pow_succ, pow_mul]; push_cast; ring_nf
  rw [hS] at lo hi
  have hL : lnFixed bits x y = 2 * a * (artanhSum a b (lnTerms bits) 0).1 * (lnScale bits) / (b * (artanhSum a b (lnTerms bits) 0).2) := by
    simp only [lnFixed]; rfl
  have rest := lnScale_le_terms bits
  generalize (1 / 9 : ℝ) ^ lnTerms bits = c at *
  clear hS hsum hfrac hz3
  generalize artanhSum a b (lnTerms bits) 0 = nd at *
  obtain ⟨num, den⟩ := nd
  simp only at *
  clear_value a b
  generalize Real.log ((x : ℝ) / y) = l at *
  generalize lnFixed bits x y = F at *
  have hB : (0 : ℝ) < (lnScale bits) := by exact_mod_cast lnScale_pos bits
  generalize lnScale bits = B at *
  have hdR : (0 : ℝ) < den := by exact_mod_cast hdp
  have hbd : 0 < b * den := Nat.mul_pos hbp hdp
  have hbdR : (0 : ℝ) < b * den := mul_pos hbR hdR
  have hTz : (2 * a * num * B : ℝ) / (b * den) = B * (2 * ((a : ℝ) / b * (num / den))) := by field_simp
  have f1 : (F : ℝ) ≤ 2 * a * num * B / (b * den) := by
    rw [hL]
    exact_mod_cast @Nat.cast_div_le ℝ _ _ _ (2 * a * num * B) (b * den)
  have f2 : (2 * a * num * B : ℝ) / (b * den) < F + 1 := by
    rw [div_lt_iff₀ hbdR]
    have h := Nat.lt_div_mul_add (a := 2 * a * num * B) (b := b * den) hbd
    rw [← hL] at h
    have : 2 * a * num * B < (F + 1) * (b * den) := by rw [add_mul]; linarith
    exact_mod_cast this
  rw [hTz] at f1 f2
  have lo' := mul_le_mul_of_nonneg_left lo hB.le
  have hi' := mul_le_mul_of_nonneg_left hi hB.le
  rw [mul_add] at hi'
  constructor <;> linarith

/-- The bounds of ln 2. -/
theorem ln2_bounds (bits : Nat) :
    (lnFixed bits 2 1 : ℝ) ≤ (lnScale bits) * Real.log 2 ∧ (lnScale bits) * Real.log 2 < lnFixed bits 2 1 + 2 := by
  have h := lnFixed_bounds bits 2 1 (by norm_num) (by norm_num) (by norm_num)
  rwa [show ((2 : ℕ) : ℝ) / ((1 : ℕ) : ℝ) = 2 by norm_num] at h

/-- The fields of a pattern as parts of its number. -/
theorem binary64Exponent_eq (p : BitVec 64) : binary64Exponent p = p.toNat / 2 ^ 52 % 2048 := by
  simp [binary64Exponent, BitVec.extractLsb'_toNat, Nat.shiftRight_eq_div_pow]

theorem binary64Fraction_eq (p : BitVec 64) : binary64Fraction p = p.toNat % 2 ^ 52 := by
  simp [binary64Fraction, BitVec.extractLsb'_toNat]

theorem binary64Sign_eq (p : BitVec 64) : p.getLsbD 63 = decide (2 ^ 63 ≤ p.toNat) := by
  have := p.isLt
  simp only [BitVec.getLsbD, Nat.testBit_eq_decide_div_mod_eq]
  congr 1; rw [eq_iff_iff]; omega

/-- A scaled integer as a real fraction. -/
theorem scaled_cast (f e : Nat) : (((f : ℚ) * 2 ^ (-(e : ℤ)) : ℚ) : ℝ) = (f : ℝ) / 2 ^ e := by
  push_cast
  rw [zpow_neg, zpow_natCast, div_eq_mul_inv]

/-- An accepted pattern (R86) is a significand of at most 53 bits over a power of two of at least 53. -/
theorem binary64Parts_spec {p : BitVec 64} (hp : inOpenUnit p = true) :
    ∃ f e, binary64Parts p = (f, e) ∧ 0 < f ∧ f < 2 ^ 53 ∧ 53 ≤ e ∧ e ≤ 1074 ∧
      ∃ q : ℚ, binary64Value p = some q ∧ (q : ℝ) = f / 2 ^ e := by
  have he := binary64Exponent_eq p
  have hf := binary64Fraction_eq p
  simp only [binary64Value, binary64Sign_eq p, binary64Parts]
  simp only [inOpenUnit, Bool.and_eq_true, decide_eq_true_eq] at hp
  generalize binary64Exponent p = e at *
  generalize binary64Fraction p = f at *
  generalize p.toNat = n at *
  have hfl : f < 2 ^ 52 := by omega
  have he2 : e ≤ 1022 := by omega
  have hn : ¬ 2 ^ 63 ≤ n := by omega
  rw [if_neg (show ¬ e = 2047 by omega)]
  simp only [hn, decide_false, Bool.false_eq_true, if_false]
  by_cases h0 : e = 0
  · simp only [if_pos h0]
    refine ⟨f, 1074, rfl, by omega, by omega, by omega, le_rfl, _, rfl, ?_⟩
    rw [show (-1074 : ℤ) = -((1074 : ℕ) : ℤ) by norm_num]
    exact scaled_cast f 1074
  · simp only [if_neg h0]
    refine ⟨2 ^ 52 + f, 1075 - e, rfl, by positivity, by omega, by omega, by omega, _, rfl, ?_⟩
    rw [show (e : ℤ) - 1075 = -((1075 - e : ℕ) : ℤ) by omega]
    exact scaled_cast (2 ^ 52 + f) (1075 - e)

/-- Below 1 by at least one unit of its last place. -/
theorem one_sub_significand {f e : Nat} (hf : f < 2 ^ 53) (he : 53 ≤ e) : 1 / 2 ^ 53 ≤ 1 - (f : ℝ) / 2 ^ e := by
  obtain rfl | h := Nat.eq_or_lt_of_le he
  · have : (f : ℝ) + 1 ≤ 2 ^ 53 := by exact_mod_cast hf
    rw [le_sub_iff_add_le, ← add_div, div_le_one (by positivity)]; linarith
  · have : (f : ℝ) / 2 ^ e ≤ 1 / 2 := by
      rw [div_le_iff₀ (by positivity)]
      have h1 : (f : ℝ) < 2 ^ 53 := by exact_mod_cast hf
      have h2 : (2 : ℝ) ^ 54 ≤ 2 ^ e := pow_le_pow_right₀ (by norm_num) h
      linarith
    have : (1 : ℝ) / 2 ^ 53 ≤ 1 / 2 := by norm_num
    linarith

/-- The precision is far below the least value of `−ln p`. -/
theorem lnScale_large {bits : Nat} (hbits : 65 ≤ bits) : (2300 : ℝ) ≤ (lnScale bits) * (1 / 2 ^ 53) := by
  have h : (2 : ℝ) ^ 65 ≤ (lnScale bits) := by
    unfold lnScale
    push_cast
    exact pow_le_pow_right₀ (by norm_num) hbits
  have := mul_le_mul_of_nonneg_right h (by positivity : (0 : ℝ) ≤ 1 / 2 ^ 53)
  norm_num at this ⊢; linarith

/-- The logarithm of a significand f over a power of two, by the power of two below f. -/
theorem neg_log_significand {f b d : Nat} (hf : 0 < f) :
    -Real.log ((f : ℝ) / 2 ^ (b + d)) = d * Real.log 2 - Real.log ((f : ℝ) / ((2 ^ b : ℕ) : ℝ)) := by
  have hfR : (f : ℝ) ≠ 0 := by positivity
  rw [Real.log_div hfR (by positivity), Real.log_div hfR (by positivity)]
  push_cast
  rw [Real.log_pow, Real.log_pow]; push_cast; ring

/-- The arithmetic of `negLnBounds`: L and M stand for the fixed-point logarithms l2 and lm, d for the exponent. -/
theorem negLn_arith {d L M : Nat} {B l2 lm nl : ℝ} (hd : d ≤ 1074) (h1 : (L : ℝ) ≤ B * l2) (h2 : B * l2 < L + 2)
    (m1 : (M : ℝ) ≤ B * lm) (m2 : B * lm < M + 2) (hnl : nl = d * l2 - lm) (hlm : 0 ≤ lm) (hl2 : l2 < 0.6931471808)
    (hbig : 2300 ≤ B * nl) :
    ((((d : Int) * L - (M + 2) : Int)) : ℝ) ≤ B * nl ∧ B * nl ≤ (((d : Int) * (L + 2) - M : Int) : ℝ) ∧
    (d : Int) * (L + 2) - M ≤ (d : Int) * L - (M + 2) + 2150 ∧ 0 < (d : Int) * L - (M + 2) ∧ nl ≤ 745 := by
  have hd0 : (0 : ℝ) ≤ d := by positivity
  have hd1 : (d : ℝ) ≤ 1074 := by exact_mod_cast hd
  have hd2 : (d : ℤ) ≤ 1074 := by exact_mod_cast hd
  have k1 := mul_le_mul_of_nonneg_left h1 hd0
  have k2 := mul_le_mul_of_nonneg_left h2.le hd0
  have k3 : (d : ℝ) * l2 ≤ 1074 * 0.6931471808 :=
    (mul_le_mul_of_nonneg_left hl2.le hd0).trans (mul_le_mul_of_nonneg_right hd1 (by norm_num))
  subst hnl
  refine ⟨by push_cast; linarith, by push_cast; linarith, by linarith, ?_, by linarith⟩
  have : (0 : ℝ) < (((d : Int) * L - (M + 2) : Int) : ℝ) := by push_cast; linarith
  exact_mod_cast this

/-- The bounds of `−ln p` hold, are positive and narrow, and `−ln p` is at most 745. -/
theorem negLnBounds_spec {bits : Nat} (hbits : 65 ≤ bits) {p : BitVec 64} {q : ℚ} (hp : inOpenUnit p = true) (hq : binary64Value p = some q) :
    ((negLnBounds bits p).1 : ℝ) ≤ (lnScale bits) * -Real.log q ∧ (lnScale bits) * -Real.log q ≤ (negLnBounds bits p).2 ∧
    (negLnBounds bits p).2 ≤ (negLnBounds bits p).1 + 2150 ∧ 0 < (negLnBounds bits p).1 ∧ -Real.log q ≤ 745 := by
  obtain ⟨f, e, hpe, hf, hf53, he53, he, q', hq', hqv⟩ := binary64Parts_spec hp
  obtain rfl : q = q' := by rw [hq] at hq'; exact Option.some.inj hq'
  obtain ⟨l1, l2⟩ := ln2_bounds bits
  have hb1 : 2 ^ Nat.log2 f ≤ f := Nat.log2_self_le (by omega)
  have hb2 : f < 2 ^ (Nat.log2 f + 1) := Nat.lt_log2_self
  have hbe : Nat.log2 f ≤ e := by
    have := (Nat.log2_lt (n := f) (k := 53) (by omega)).mpr hf53; omega
  obtain ⟨m1, m2⟩ := lnFixed_bounds bits f (2 ^ Nat.log2 f) (by positivity) hb1 (by rw [pow_succ] at hb2; omega)
  have hnl : 1 / 2 ^ 53 ≤ -Real.log (q : ℝ) := by
    have h := one_sub_significand hf53 he53
    rw [← hqv] at h
    have := Real.log_le_sub_one_of_pos (show (0 : ℝ) < q by rw [hqv]; positivity)
    linarith
  have hbig := (lnScale_large hbits).trans (mul_le_mul_of_nonneg_left hnl (Nat.cast_nonneg (lnScale bits)))
  unfold negLnBounds
  rw [hpe]
  dsimp only
  generalize Nat.log2 f = b at *
  obtain ⟨d, rfl⟩ : ∃ d, e = b + d := ⟨e - b, by omega⟩
  have hlm : 0 ≤ Real.log ((f : ℝ) / ((2 ^ b : ℕ) : ℝ)) := by
    apply Real.log_nonneg
    rw [le_div_iff₀ (by positivity), one_mul]; exact_mod_cast hb1
  rw [show (((b + d : ℕ) : ℤ) - (b : ℤ)) = d by push_cast; ring]
  exact negLn_arith (by omega) l1 l2 m1 m2 (by rw [hqv]; exact neg_log_significand hf) hlm
    Real.log_two_lt_d9 hbig

/-- `−n · ln p / (ln 2)²` (R145), with its logarithms at any scale. -/
theorem sizing_rescale {n nl ln2 B : ℝ} (hB : 0 < B) (hl : 0 < ln2) :
    n * nl / ln2 ^ 2 = n * (B * nl) * B / ((B * ln2) * (B * ln2)) := by
  field_simp

/-- R145's M lies between the bounds. -/
theorem sizingMBounds_spec {bits : Nat} {n : Int} {p : BitVec 64} {q : ℚ} (hbits : 65 ≤ bits) (hn : 1 ≤ n)
    (hp : inOpenUnit p = true) (hq : binary64Value p = some q) :
    (sizingMBounds bits n p).1 ≤ ⌈-(n : ℝ) * Real.log (q : ℝ) / Real.log 2 ^ 2⌉ ∧
    ⌈-(n : ℝ) * Real.log (q : ℝ) / Real.log 2 ^ 2⌉ ≤ (sizingMBounds bits n p).2 := by
  obtain ⟨n1, n2, -, n4, -⟩ := negLnBounds_spec hbits hp hq
  obtain ⟨l1, l2⟩ := ln2_bounds bits
  have hL0 : 0 < lnFixed bits 2 1 := by
    have h : (2 : ℝ) < lnScale bits * Real.log 2 := by
      have h1 := lnScale_large hbits
      have h2 := Real.log_two_gt_d9
      have h3 : (2300 : ℝ) ≤ lnScale bits := h1.trans (mul_le_of_le_one_right (Nat.cast_nonneg _) (by norm_num))
      nlinarith
    have : (0 : ℝ) < lnFixed bits 2 1 := by linarith
    exact_mod_cast this
  have hO : (0 : ℝ) < lnScale bits := by exact_mod_cast lnScale_pos bits
  simp only [sizingMBounds]
  generalize (negLnBounds bits p).1 = lo at *
  generalize (negLnBounds bits p).2 = hi at *
  generalize lnScale bits = O at *
  generalize lnFixed bits 2 1 = L at *
  have hLi : (0 : ℤ) < L := by exact_mod_cast hL0
  have hLR : (0 : ℝ) < L := by exact_mod_cast hL0
  have hnR : (0 : ℝ) < n := by exact_mod_cast (by omega : 0 < n)
  have hloR : (0 : ℝ) < lo := by exact_mod_cast n4
  have hhiR : (0 : ℝ) < hi := (hloR.trans_le n1).trans_le n2
  rw [ceilDiv_eq_ceil _ (by positivity), ceilDiv_eq_ceil _ (by positivity),
    show -(n : ℝ) * Real.log (q : ℝ) = n * -Real.log (q : ℝ) by ring,
    sizing_rescale hO (Real.log_pos (by norm_num))]
  refine ⟨Int.ceil_le_ceil ?_, Int.ceil_le_ceil ?_⟩ <;> push_cast
  · exact div_le_div₀ (by linarith [mul_pos (mul_pos hnR (hloR.trans_le n1)) hO])
      (mul_le_mul_of_nonneg_right (mul_le_mul_of_nonneg_left n1 hnR.le) hO.le) (by nlinarith)
      (mul_le_mul l2.le l2.le (by linarith) (by positivity))
  · exact div_le_div₀ (by positivity)
      (mul_le_mul_of_nonneg_right (mul_le_mul_of_nonneg_left n2 hnR.le) hO.le) (by positivity)
      (mul_le_mul l1 l1 hLR.le (by linarith))

/-- Bounds that agree are R145's M. -/
theorem sizingSettled_eq {bits : Nat} {n : Int} {p : BitVec 64} (h : sizingSettled bits n p) :
    (sizingMBounds bits n p).1 =
      ⌈-(n : ℝ) * Real.log (((binary64Value p).getD 0 : ℚ) : ℝ) / Real.log 2 ^ 2⌉ := by
  obtain ⟨hbits, hn, hp, he⟩ := h
  obtain ⟨f, e, -, -, -, -, -, q, hq, -⟩ := binary64Parts_spec hp
  obtain ⟨h1, h2⟩ := sizingMBounds_spec hbits hn hp hq
  rw [hq, Option.getD_some]
  omega

end Sys2Proof.Machine
end

