-- ==== Sys2Proof/Machine/Sizing.lean ====
section
/-! DEFINITION. The function `SIZING` of capacity-derived construction (R145 to R147): the reference instance `SIZING_REF`, read over
the reals (`IsSizingRef`) and computed (`sizingRef`), and the `SIZING` of the parameters. -/

namespace Sys2Proof.Machine

/-- `SIZING_REF(n, P) = (m, k)` (R145): `M = ceil(−n · ln p / (ln 2)²)` and `k = max(1, round((M / n) · ln 2))` over the reals, with
p the exact value of the pattern P and `M / n` a real division. -/
def IsSizingRef (n : Int) (p : BitVec 64) (m k : Int) : Prop :=
  ∃ q : ℚ, binary64Value p = some q ∧
    m = ⌈-(n : ℝ) * Real.log (q : ℝ) / Real.log 2 ^ 2⌉ ∧
    k = max 1 (round ((m : ℝ) / (n : ℝ) * Real.log 2))

/-- The M of R145, and nothing else: an integer with the proof that it is that M. -/
abbrev ExactM (n : Int) (p : BitVec 64) : Type :=
  { m : Int // m = ⌈-(n : ℝ) * Real.log (((binary64Value p).getD 0 : ℚ) : ℝ) / Real.log 2 ^ 2⌉ }

/-- M at the first precision, doubling from `bits`, whose bounds agree. Its value is R145's M whether or not one is ever found: its
type has no other value. -/
def refineM (n : Int) (p : BitVec 64) (bits : Nat) : ExactM n p :=
  if h : sizingSettled bits n p then ⟨(sizingMBounds bits n p).1, sizingSettled_eq h⟩ else refineM n p (2 * bits)
partial_fixpoint

/-- The precision tried first. -/
@[irreducible] def sizingBits : Nat := 1024

/-- M of `SIZING_REF` (R145): from the first precision, else from a finer one. -/
def sizingM (n : Int) (p : BitVec 64) : ExactM n p :=
  if h : sizingSettled sizingBits n p then ⟨(sizingMBounds sizingBits n p).1, sizingSettled_eq h⟩
  else refineM n p (2 * sizingBits)

/-- `k = max(1, round((M / n) · ln 2))` for a given M (R145): the lower bound of ln 2 is close enough to round as ln 2 does. -/
def sizingK (n m : Int) : Int :=
  let one : Int := lnScale sizingBits
  let ln2 : Int := lnFixed sizingBits 2 1
  max 1 ((2 * m * ln2 + n * one) / (2 * n * one))

/-- `SIZING_REF` (R145), computed (log entry 6). -/
def sizingRef (n : Int) (p : BitVec 64) : Int × Int :=
  let m := (sizingM n p).1
  (m, sizingK n m)

/-- A known row of another `SIZING`. -/
def findRow (rows : List SizingRow) (n : Int) (p : BitVec 64) : Option (Int × Int) :=
  match rows with
  | [] => none
  | r :: rs => if r.n = n ∧ r.p = p then some (r.m, r.k) else findRow rs n p

/-- `SIZING(n, P)` of the parameters (R145, R146): a function of (n, P) alone; of another `SIZING` than the reference it is open
where no row gives it (log entry 5). -/
def Params.sizingOf (c : Params) (n : Int) (p : BitVec 64) : Int × Int :=
  match c.sizing with
  | .reference => sizingRef n p
  | .other rows =>
    match findRow rows n p with
    | some mk => mk
    | none => Config.sizing n p

end Sys2Proof.Machine
end

