-- ==== Sys2Proof/Machine/Construction.lean ====
section
/-! DEFINITION. Construction, unit `BC`: the meanings of `CREATE` (R140) and `CREATE_CAP` (R144). -/

namespace Sys2Proof.Machine

/-- The largest k a filter can have, `2^31 − 1` (R29, R147). -/
def kMax : Int := 2147483647

/-- `CREATE(fast)` (R140): `INVALID_ARGUMENT` before `CAPACITY_EXCEEDED` (R198), then construct. -/
def execCreate (fast : Bool) (s : State) : Host.Outcome State Fault Refusal :=
  let m := s.sizeOperand
  let k := s.hashCountOperand
  if m ≤ 0 ∨ k ≤ 0 then raise .invalidArgument s
  else if (s.params.mMax : Int) < m then raise .capacityExceeded s
  else done (s.construct m k fast)

/-- `CREATE_CAP(fast)` (R144): n before p before the derived pair (R198), which meets the checks of explicit sizing (R147). -/
def execCreateCap (fast : Bool) (s : State) : Host.Outcome State Fault Refusal :=
  let n := s.sizeOperand
  let p := s.probabilityOperand
  if n ≤ 0 then raise .invalidArgument s
  else if inOpenUnit p = false then raise .invalidArgument s
  else
    let mk := Params.sizingOf s.params n p
    let m := mk.1
    let k := mk.2
    if m ≤ 0 ∨ k ≤ 0 then raise .invalidArgument s
    else if (s.params.mMax : Int) < m ∨ kMax < k then raise .capacityExceeded s
    else done (s.construct m k fast)

end Sys2Proof.Machine
end

