-- ==== Sys2Proof/Machine/Hash.lean ====
section
/-! DEFINITION. The hash engine, unit `HE`: the 32-bit primitives (R10), the hash (R110 to R119), and the meanings of `HASH` (R120)
and `FMIX` (R121). -/

namespace Sys2Proof.Machine

/-! In the three operations below the operand that is a numeral where the hash uses them stands first: the kernel counts down the
second operand of a Nat operation, and must never count down a constant of the hash. -/

/-- `add32` (R10). -/
def add32 (a b : Word) : Word := BitVec.ofNat 32 ((b.toNat + a.toNat) % 2 ^ 32)

/-- `mul32` (R10). -/
def mul32 (a b : Word) : Word := BitVec.ofNat 32 (b.toNat * a.toNat % 2 ^ 32)

/-- `xor32` (R10). -/
def xor32 (a b : Word) : Word := a ^^^ b

/-- `and32` (R10). -/
def and32 (a b : Word) : Word := a &&& b

/-- `shr32` (R10): the logical right shift. -/
def shr32 (a : Word) (r : Nat) : Word := BitVec.ofNat 32 (a.toNat / 2 ^ r)

/-- `rotl32` (R10), for 1 ≤ r ≤ 31. -/
def rotl32 (a : Word) (r : Nat) : Word := BitVec.ofNat 32 (2 ^ r * a.toNat % 2 ^ 32 + a.toNat / 2 ^ (32 - r))

/-- Byte i of a message; 0 past its end, where no rule reads. -/
def byteAt (b : List Byte) (i : Nat) : Byte := b.getD i 0

/-- `chunk(B, j)` (R111). -/
def chunk (b : List Byte) (j : Nat) : Word :=
  packBytes (byteAt b (4 * j)) (byteAt b (4 * j + 1)) (byteAt b (4 * j + 2)) (byteAt b (4 * j + 3))

/-- `tail(B)` (R112): the sum of `2^(8j) · B[4·nchunks + j]` over the L mod 4 trailing bytes. -/
def tailWord (b : List Byte) : Word :=
  BitVec.ofNat 32
    ((List.range (b.length % 4)).map fun j => 2 ^ (8 * j) * (byteAt b (4 * (b.length / 4) + j)).toNat).sum

/-- `scramble` (R113). -/
def scramble (v : Word) : Word :=
  let v1 := mul32 v 0xcc9e2d51
  let v2 := rotl32 v1 15
  mul32 v2 0x1b873593

/-- `fold` (R114). -/
def fold (acc v : Word) : Word :=
  let a1 := xor32 acc (scramble v)
  let a2 := rotl32 a1 13
  add32 (mul32 a2 5) 0xe6546b64

/-- `mixtail` (R115). -/
def mixtail (acc w : Word) : Word := xor32 acc (scramble w)

/-- `fmix32` (R117). -/
def fmix32 (a : Word) : Word :=
  let a1 := xor32 a (shr32 a 16)
  let a2 := mul32 a1 0x85ebca6b
  let a3 := xor32 a2 (shr32 a2 13)
  let a4 := mul32 a3 0xc2b2ae35
  xor32 a4 (shr32 a4 16)

/-- The accumulator after every complete chunk, in order (R111, R114, R118). -/
def foldChunks (b : List Byte) : Word := (List.range (b.length / 4)).foldl (fun acc j => fold acc (chunk b j)) 0

/-- The accumulator before finalization (R118): the chunks, then the tail step when `L mod 4` is not 0 (R115). -/
def accumulate (b : List Byte) : Word :=
  if b.length % 4 = 0 then foldChunks b else mixtail (foldChunks b) (tailWord b)

/-- `murmur3_32(B)` (R118), for `len(B)` < 2^32 (R116; log entry 11). -/
def murmur3 (b : List Byte) : Word := fmix32 (xor32 (accumulate b) (BitVec.ofNat 32 b.length))

/-- `finalize_mix(p, l)` (R119). -/
def finalizeMix (p l : Word) : Word := fmix32 (xor32 p l)

/-- `HASH` (R120). -/
def execHash (s : State) : Host.Outcome State Fault Refusal :=
  if s.keyTooLong then raise .keyTooLong s
  else done (s.setResult (murmur3 s.key))

/-- `FMIX` (R121). -/
def execFmix (s : State) : Host.Outcome State Fault Refusal :=
  done (s.setResult (finalizeMix s.arg0 s.arg1))

end Sys2Proof.Machine
end

