-- ==== Sys2Proof/Machine/Filter.lean ====
section
/-! DEFINITION. The filter's runtime, unit `BC`: hash-index derivation (R160 to R165) and the meanings of `INSERT` (R166) and `QUERY`
(R168). -/

namespace Sys2Proof.Machine

/-- The decimal digits of i put before `acc`, at most `fuel` of them. -/
def decDigits : (fuel i : Nat) → List Byte → List Byte
  | 0, _, acc => acc
  | fuel + 1, i, acc =>
    let acc' := BitVec.ofNat 8 (0x30 + i % 10) :: acc
    if i / 10 = 0 then acc' else decDigits fuel (i / 10) acc'

/-- `dec(i)` (R161): the ASCII digits of i, most significant first; ten hold every index a 32-bit k allows (log entry 12). -/
def dec (i : Nat) : List Byte := decDigits 10 i []

/-- `H_std(KEY, i)` (R162). -/
def hStd (key : List Byte) (i : Nat) : Word := murmur3 (key ++ dec i)

/-- `H_fast(KEY, i)` (R163): the chain runs on the raw hashes, with the key's byte length. -/
def hFast (key : List Byte) : Nat → Word
  | 0 => murmur3 key
  | i + 1 => finalizeMix (hFast key i) (BitVec.ofNat 32 key.length)

/-- `n` hashes of the fast-mode chain from h on, each made from the one before it (R33, R163). -/
def fastChain (len : Word) : Nat → Word → List Word
  | 0, _ => []
  | n + 1, h => h :: fastChain len n (finalizeMix h len)

/-- `H_0, …, H_{k−1}` in ascending order (R160); fast mode hashes the key once (R163). -/
def hashes (key : List Byte) (k : Nat) (fast : Bool) : List Word :=
  if fast then fastChain (BitVec.ofNat 32 key.length) k (murmur3 key)
  else (List.range k).map (hStd key)

/-- `position(H, M)` (R164): the sign bit cleared, then the remainder. -/
def position (h : Word) (m : Nat) : Nat := unsigned (and32 h 0x7FFFFFFF) % m

/-- `pos_0, …, pos_{k−1}` of a key (R165). -/
def positions (key : List Byte) (m k : Nat) (fast : Bool) : List Nat := (hashes key k fast).map (position · m)

/-- The positions of the key in the buffer, in the filter that stands (R160, R165). -/
def State.positions (s : State) : List Nat :=
  Machine.positions s.key (unsigned s.numBits) (unsigned s.numHash) s.fast

/-- One turn of `INSERT`'s loop (R166): a bit that is 0 is set and the change recorded. -/
def insertBit (b : List (Nat × Word) × Bool) (p : Nat) : List (Nat × Word) × Bool :=
  if bitAt b.1 p then b else (setBit b.1 p, true)

/-- `INSERT`'s loop (R166): all positions, ascending, no early exit; the bits after it, and `changed`. -/
def insertBits (m : List (Nat × Word)) (ps : List Nat) : List (Nat × Word) × Bool := ps.foldl insertBit (m, false)

/-- `QUERY`'s loop (R168): ends at the first bit that is 0. -/
def allSet (m : List (Nat × Word)) : List Nat → Bool
  | [] => true
  | p :: ps => if bitAt m p then allSet m ps else false

/-- The bits written by a command (R35). -/
def State.setBits (s : State) (m : List (Nat × Word)) : State := { s with bits := m }

/-- `INSERT` (R166). -/
def execInsert (s : State) : Host.Outcome State Fault Refusal :=
  if s.valid = false then raise .noFilter s
  else if s.keyTooLong then raise .keyTooLong s
  else
    let after := insertBits s.bits s.positions
    done ((s.setBits after.1).setResult (boolWord after.2))

/-- `QUERY` (R168). -/
def execQuery (s : State) : Host.Outcome State Fault Refusal :=
  if s.valid = false then raise .noFilter s
  else if s.keyTooLong then raise .keyTooLong s
  else done (s.setResult (boolWord (allSet s.bits s.positions)))

end Sys2Proof.Machine
end

