-- ==== Sys2Proof/Machine/Dispatch.lean ====
section
/-! DEFINITION. One arm per command: which meaning each has. -/

namespace Sys2Proof.Machine

def exec (i : Instr) (s : State) : Host.Outcome State Fault Refusal :=
  match i with
  | .hash => Sys2Proof.Machine.execHash s
  | .fmix => Sys2Proof.Machine.execFmix s
  | .create fast => Sys2Proof.Machine.execCreate fast s
  | .createCap fast => Sys2Proof.Machine.execCreateCap fast s
  | .insert => Sys2Proof.Machine.execInsert s
  | .query => Sys2Proof.Machine.execQuery s

end Sys2Proof.Machine
end

