-- ==== Sys2Proof/Machine/Port.lean ====
section
/-! DEFINITION. The host's port: the address map (R51, R58), `HostRead` and `HostWrite` (R50 to R52, R228), `WAIT` (R93) and the
reset event (R220). -/

namespace Sys2Proof.Machine

/-- The offset of a register (10_state.md section 8). -/
def regOffset : RegName → Nat
  | .cmd => 0x000
  | .status => 0x004
  | .arg0 => 0x008
  | .arg1 => 0x00C
  | .arg2 => 0x010
  | .arg3 => 0x014
  | .keyLen => 0x018
  | .result => 0x01C
  | .numBits => 0x020
  | .numHash => 0x024
  | .mode => 0x028

/-- What stands at an aligned offset below `0x100` (R51). -/
def lowPlace (off : Nat) : Place :=
  match off with
  | 0x000 => .reg .cmd
  | 0x004 => .reg .status
  | 0x008 => .reg .arg0
  | 0x00C => .reg .arg1
  | 0x010 => .reg .arg2
  | 0x014 => .reg .arg3
  | 0x018 => .reg .keyLen
  | 0x01C => .reg .result
  | 0x020 => .reg .numBits
  | 0x024 => .reg .numHash
  | 0x028 => .reg .mode
  | _ => .reserved

/-- Where an offset lands (R50, R51), or why the block has nothing there (R58, U13). -/
def placeOf (p : Params) (off : Nat) : Except Refusal Place :=
  if off % 4 ≠ 0 then .error (.unalignedOffset off)
  else if off < 0x100 then .ok (lowPlace off)
  else if off < 0x100 + p.keyMax then .ok (.keyWord ((off - 0x100) / 4))
  else .error (.offsetOutsideBlock off)

/-- The value of a register as the host reads it while `BUSY` = 0 (R26 to R30, R185); `CMD` reads 0. -/
def State.readReg (s : State) : RegName → Word
  | .cmd => 0
  | .status => s.statusWord
  | .arg0 => s.arg0
  | .arg1 => s.arg1
  | .arg2 => s.arg2
  | .arg3 => s.arg3
  | .keyLen => s.keyLen
  | .result => s.result
  | .numBits => s.numBits
  | .numHash => s.numHash
  | .mode => s.modeWord

/-- What a read of a place returns while `BUSY` = 0 (R51, R52). -/
def State.readPlace (s : State) : Place → Word
  | .reg r => s.readReg r
  | .reserved => 0
  | .keyWord w => s.keyWord w

/-- A write of a register while `BUSY` = 0 (R51): `CMD` starts a command (R80, R229), read-only registers ignore it. -/
def State.writeReg (s : State) (v : Word) : RegName → State
  | .cmd => { s with pending := some v }
  | .status => s
  | .arg0 => { s with arg0 := v }
  | .arg1 => { s with arg1 := v }
  | .arg2 => { s with arg2 := v }
  | .arg3 => { s with arg3 := v }
  | .keyLen => { s with keyLen := v }
  | .result => s
  | .numBits => s
  | .numHash => s
  | .mode => s

/-- A write of a place while `BUSY` = 0 (R51, R52). -/
def State.writePlace (s : State) (v : Word) : Place → State
  | .reg r => s.writeReg v r
  | .reserved => s
  | .keyWord w => s.setKeyWord w v

/-- The value a read returns (R57: reads have no side effect). -/
def State.setReadData (s : State) (v : Word) : State := { s with readData := v }

/-- A read other than `STATUS` while `BUSY` = 1 (R228): an unspecified value (U4; log entry 9). -/
def State.readUnspecified (s : State) : State :=
  { s with readData := Config.busyRead s.draws, draws := s.draws + 1 }

/-- A read of a place in any state (R51, R228): while `BUSY` = 1 only `STATUS` is exact. -/
def State.readAny (s : State) (pl : Place) : State :=
  if s.busy then
    match pl with
    | .reg .status => s.setReadData s.statusWord
    | _ => s.readUnspecified
  else s.setReadData (s.readPlace pl)

/-- `HostRead(off)` (R50). -/
def hostRead (off : Nat) (s : State) : Host.Outcome State Fault Refusal :=
  match placeOf s.params off with
  | .error r => .refused r
  | .ok pl => .next (s.readAny pl)

/-- `HostWrite(off, v)` (R50): ignored at every offset while `BUSY` = 1 (R228). -/
def hostWrite (off : Nat) (v : Word) (s : State) : Host.Outcome State Fault Refusal :=
  match placeOf s.params off with
  | .error r => .refused r
  | .ok pl => .next (if s.busy then s else s.writePlace v pl)

/-- The rest of the host's events. -/
def State.setInbox (s : State) (es : List HostEvent) : State := { s with inbox := es }

/-- Serve the host's next event. With none the block is idle and keeps its state (R203). A `WAIT` stays at the head while the
value read has `BUSY` = 1 (R93). -/
def serveHost (s : State) : Host.Outcome State Fault Refusal :=
  match s.inbox with
  | [] => .next s
  | .write off v :: es => hostWrite off v (s.setInbox es)
  | .read off :: es => hostRead off (s.setInbox es)
  | .wait :: es => .next ((if s.busy then s else s.setInbox es).setReadData s.statusWord)
  | .reset :: es => .next (s.setInbox es).resetBlock

end Sys2Proof.Machine
end

