-- ==== Sys2Proof/Machine/Command.lean ====
section
/-! DEFINITION. A pending command runs (R80, R229), and which agent moves next. -/

namespace Sys2Proof.Machine

/-- The block runs the pending word (R80): it decodes it and executes the command's rule; a word that is no command raises
`ILLEGAL_COMMAND` and changes nothing else (R83, R89, R194). -/
def runCommand (w : Word) (s : State) : Host.Outcome State Fault Refusal :=
  match decode w with
  | .command i => exec i s
  | .illegal _ => raise .illegalCommand s

/-- Take the next entry off the schedule. -/
def State.passTurn (s : State) : State := { s with schedule := s.schedule.tail }

/-- The agent that moves next while a command is pending; the block when the schedule is empty (R227: every command completes). -/
def State.nextAgent (s : State) : Agent :=
  match s.schedule with
  | [] => .block
  | a :: _ => a

/-- One step of the whole: while no command is pending the host moves (R22, R203); while one is, the agent the schedule names. -/
def stepAgents (s : State) : Host.Outcome State Fault Refusal :=
  match s.pending with
  | none => serveHost s
  | some w =>
    match s.nextAgent with
    | .block => runCommand w s.passTurn
    | .host => serveHost s.passTurn

/-- The state in which the word is the pending command and the block moves next: the state a host's write of the word to `CMD`
leads to (R80, R229; log entry 1). -/
def State.withPending (s : State) (w : Word) : State := { s with pending := some w, schedule := [] }

end Sys2Proof.Machine
end

