-- ==== Sys2Proof/Machine/Step.lean ====
section
/-! DEFINITION. The step of the machine, and the placing of one instruction where the next step runs it. -/

namespace Sys2Proof.Machine

/-- One step: the host's next event or the pending command (R20, R22, R229). -/
def step (s : State) : Host.Outcome State Fault Refusal := stepAgents s

/-- The instruction of `nbits` bits with value `w` as the pending command, which the very next step runs: the block fetches
nothing, a command arrives as a host write to `CMD` (R22, R80; log entry 1). -/
def State.withFetchWord (s : State) (nbits w : Nat) : State := s.withPending (tableWord nbits w)

end Sys2Proof.Machine
end

