-- ==== Sys2Proof/WellFormed.lean ====
section
/-! DEFINITION. Which parameters, commands, host events and statements are well formed. -/

namespace Sys2Proof

/-- The ranges R8 gives: 1 ≤ `M_MAX` ≤ 2^31 − 1; `KEY_MAX` a multiple of 4, 4 ≤ `KEY_MAX` ≤ 2^30. -/
abbrev Params.legal (p : Params) : Prop :=
  1 ≤ p.mMax ∧ p.mMax ≤ 2147483647 ∧ p.keyMax % 4 = 0 ∧ 4 ≤ p.keyMax ∧ p.keyMax ≤ 1073741824

/-- Every command is well formed: its only operand field is the one bit `FAST`, and both values of it are legal where the
format has it (R81, R82). A word that is no command is refused by `decode` (R89), not here. -/
def Instr.wellFormed : Instr → Bool
  | .hash => true
  | .fmix => true
  | .create _ => true
  | .createCap _ => true
  | .insert => true
  | .query => true

/-- An offset the port can carry (R50): a multiple of 4 in 0 .. `0x100 + KEY_MAX − 4`. -/
def offsetInBlock (p : Params) (off : Nat) : Bool :=
  off % 4 == 0 && decide (off < 0x100 + p.keyMax)

/-- A host event the port can carry (R50). -/
def HostEvent.wellFormed (p : Params) : HostEvent → Bool
  | .write off _ => offsetInBlock p off
  | .read off => offsetInBlock p off
  | .wait => true
  | .reset => true

/-- `<value>` (R91): a 32-bit pattern or a decimal integer in −2^31 .. 2^32 − 1. -/
def valueInRange (v : Int) : Bool := decide (-2147483648 ≤ v) && decide (v ≤ 4294967295)

/-- `KEYBUF[w]` names a word of the buffer (R52, R91), a bare offset one the port can carry (R50). -/
def Loc.wellFormed (p : Params) : Loc → Bool
  | .reg _ => true
  | .keybuf w => decide (w < p.keyMax / 4)
  | .offset off => offsetInBlock p off

/-- The number of bytes of a key literal. -/
def KeyLit.length : KeyLit → Nat
  | .text cs => cs.length
  | .octets bs => bs.length

/-- A key literal (R94): printable ASCII characters only, and a length of at most `KEY_MAX`. -/
def KeyLit.wellFormed (p : Params) (b : KeyLit) : Bool :=
  decide (b.length ≤ p.keyMax) &&
    match b with
    | .text cs => cs.all fun c => decide (0x20 ≤ c.toNat) && decide (c.toNat ≤ 0x7E)
    | .octets _ => true

/-- A statement of the notation (R91 to R95). -/
def Stmt.wellFormed (p : Params) : Stmt → Bool
  | .wr l v => l.wellFormed p && valueInRange v
  | .rd l => l.wellFormed p
  | .wait => true
  | .key b => b.wellFormed p
  | .bare i => i.wellFormed
  | .hash b => b.wellFormed p
  | .insert b => b.wellFormed p
  | .query b => b.wellFormed p
  | .fmix a b => valueInRange a && valueInRange b
  | .create m k _ => valueInRange m && valueInRange k
  | .createCap n _ _ => valueInRange n

end Sys2Proof
end

