-- ==== Sys2Proof/Machine/Notation.lean ====
section
/-! DEFINITION. The host-program notation (R91 to R96): what each statement expands to, as the host's events. -/

namespace Sys2Proof.Machine

/-- The offset `<reg>` names (R91): `KEYBUF[w]` is the word at `0x100 + 4·w`. -/
def locOffset : Loc → Nat
  | .reg r => regOffset r
  | .keybuf w => 0x100 + 4 * w
  | .offset off => off

/-- `<value>` (R91): taken modulo 2^32. -/
def valueWord (v : Int) : Word := BitVec.ofInt 32 v

/-- The bytes of a key literal (R94): each character of a string stands for its one-byte ASCII code. -/
def keyBytes : KeyLit → List Byte
  | .text cs => cs.map fun c => BitVec.ofNat 8 c.toNat
  | .octets bs => bs

/-- `v_w` (R94): bytes 4·w .. 4·w + 3 of the key, absent bytes as `0x00`. -/
def literalWord (b : List Byte) (w : Nat) : Word :=
  packBytes (b.getD (4 * w) 0) (b.getD (4 * w + 1) 0) (b.getD (4 * w + 2) 0) (b.getD (4 * w + 3) 0)

/-- `WR <reg>, <value>` (R91). -/
def writeTo (l : Loc) (v : Word) : HostEvent := .write (locOffset l) v

/-- `KEY <bytes>` (R94): the words 0 to ceil(L / 4) − 1 in ascending order, then the length. -/
def expandKey (b : KeyLit) : List HostEvent :=
  ((List.range (((keyBytes b).length + 3) / 4)).map fun w => writeTo (.keybuf w) (literalWord (keyBytes b) w)) ++
    [writeTo (.reg .keyLen) (BitVec.ofNat 32 (keyBytes b).length)]

/-- A bare command statement (R92): the write of its word to `CMD`, then `WAIT`. -/
def expandBare (i : Instr) : List HostEvent := [writeTo (.reg .cmd) (encode i), .wait]

/-- An omitted operand f is 0, standard mode (R95). -/
def fastOperand (f : Option Bool) : Bool := f.getD false

/-- The exponent q of the last place with which `num / den` has a significand in 2^52 .. 2^53, not below −1074. -/
def ulpExponent (num den : Nat) : Int :=
  let a : Int := (Nat.log2 num : Int) - Nat.log2 den
  let top := if den * 2 ^ a.toNat ≤ num * 2 ^ (-a).toNat then a else a - 1
  max (top - 52) (-1074)

/-- `num / den` rounded to the nearest integer, ties to even (log entry 13). -/
def roundEven (num den : Nat) : Nat :=
  let q := num / den
  let r := num % den
  if 2 * r < den then q else if 2 * r = den then q + q % 2 else q + 1

/-- The binary64 pattern nearest to a decimal literal (R95, G3). Where R95's "nearest" leaves the pattern open the model chooses
(log entry 13): ties go to even, too large a number is the infinity, and a negative literal that is 0 or rounds to 0 keeps its sign,
so it is −0, though +0 is equally near. -/
def nearestBinary64 (d : Decimal) : BitVec 64 :=
  let den := 10 ^ d.scale
  let q := ulpExponent d.digits den
  let significand := roundEven (d.digits * 2 ^ (-q).toNat) (den * 2 ^ q.toNat)
  let pattern := (q + 1074).toNat * 2 ^ 52 + significand
  let magnitude := if d.digits = 0 then 0 else min pattern 0x7FF0000000000000
  BitVec.ofNat 64 ((if d.negative then 2 ^ 63 else 0) + magnitude)

/-- What a statement expands to (R91 to R95). -/
def expand : Stmt → List HostEvent
  | .wr l v => [writeTo l (valueWord v)]
  | .rd l => [.read (locOffset l)]
  | .wait => [.wait]
  | .key b => expandKey b
  | .bare i => expandBare i
  | .hash b => expandKey b ++ expandBare .hash
  | .insert b => expandKey b ++ expandBare .insert
  | .query b => expandKey b ++ expandBare .query
  | .fmix a b => [writeTo (.reg .arg0) (valueWord a), writeTo (.reg .arg1) (valueWord b)] ++ expandBare .fmix
  | .create m k f =>
    [writeTo (.reg .arg0) (valueWord m), writeTo (.reg .arg1) (valueWord k)] ++ expandBare (.create (fastOperand f))
  | .createCap n p f =>
    [writeTo (.reg .arg0) (valueWord n), writeTo (.reg .arg2) ((nearestBinary64 p).extractLsb' 0 32),
      writeTo (.reg .arg3) ((nearestBinary64 p).extractLsb' 32 32)] ++ expandBare (.createCap (fastOperand f))

/-- The encoding of a program (R96): the list of its transactions after expansion. -/
def expandProgram (p : List Stmt) : List HostEvent := p.flatMap expand

end Sys2Proof.Machine
end

