-- ==== Sys2Proof/Safety.lean ====
section
/-! DEFINITION. The terms claims use: the invariant of the state (R28 to R31, R34, R54), the lifetime of one filter instance (R31,
R169), and the completion codes the source knows (R200). -/

namespace Sys2Proof.Machine

/-- `KEYBUF` (R34): the memory is in canonical form, and every byte written stands below `KEY_MAX`. -/
abbrev State.keybufLegal (s : State) : Prop :=
  Memory.wf unlistedKey s.keybuf ∧ ∀ e ∈ s.keybuf, e.1 < s.params.keyMax

/-- The filter registers (R28, R29, R31, R38): with a filter 1 ≤ `NUM_BITS` ≤ `M_MAX` and 1 ≤ `NUM_HASH` ≤ 2^31 − 1; without one
all three are 0. -/
abbrev State.filterLegal (s : State) : Prop :=
  (s.valid = true →
    1 ≤ unsigned s.numBits ∧ unsigned s.numBits ≤ s.params.mMax ∧ 1 ≤ unsigned s.numHash ∧ unsigned s.numHash ≤ 2147483647) ∧
  (s.valid = false → s.numBits = 0 ∧ s.numHash = 0 ∧ s.fast = false)

/-- `BITS` (R35, R54): the memory is in canonical form, and no bit at or above `NUM_BITS` is 1. -/
abbrev State.bitsLegal (s : State) : Prop :=
  Memory.wf unlistedBits s.bits ∧ ∀ e ∈ s.bits, ∀ i < 32, e.2.getLsbD i = true → 32 * e.1 + i < unsigned s.numBits

/-- The invariant of the state; the last part is that `NO_FILTER` needs `VALID` = 0 (R192). -/
abbrev State.Inv (s : State) : Prop :=
  s.params.legal ∧ s.keybufLegal ∧ s.filterLegal ∧ s.bitsLegal ∧ (s.err = .noFilter → s.valid = false)

/-- The host moves at the next step: no command is pending, or the schedule gives it the turn (R229). -/
def State.hostMoves (s : State) : Bool :=
  match s.pending with
  | none => true
  | some _ => s.nextAgent == .host

/-- The next step is the reset event (R220). -/
def State.resetNext (s : State) : Bool :=
  s.hostMoves && s.inbox.head? == some .reset

/-- The commands that construct (R140, R144). -/
def Instr.constructs : Instr → Bool
  | .hash => false
  | .fmix => false
  | .create _ => true
  | .createCap _ => true
  | .insert => false
  | .query => false

/-- The next step runs this command. -/
def State.commandNext (s : State) (i : Instr) : Prop :=
  ∃ w, s.pending = some w ∧ s.nextAgent = .block ∧ decode w = .command i

/-- The step from s to t ends the filter instance of s (R31, R143, R169): a reset, or a construction that completes with `OK`. -/
def endsFilter (s t : State) : Prop :=
  s.resetNext = true ∨ ∃ i, s.commandNext i ∧ Instr.constructs i = true ∧ t.err = .ok

/-- A run within the lifetime of one filter instance: "no successful construction and no reset in between" (R169). -/
inductive SameFilterRun : State → State → Prop where
  | refl (s : State) : SameFilterRun s s
  | step {s t u : State} : SameFilterRun s t → Machine.step t = .next u → ¬ endsFilter t u → SameFilterRun s u

/-- Which command can end with which code, complete (R196). -/
def Instr.codes : Instr → List Code
  | .hash => [.ok, .keyTooLong]
  | .fmix => [.ok]
  | .create _ => [.ok, .invalidArgument, .capacityExceeded]
  | .createCap _ => [.ok, .invalidArgument, .capacityExceeded]
  | .insert => [.ok, .noFilter, .keyTooLong]
  | .query => [.ok, .noFilter, .keyTooLong]

/-- The codes with a counterpart in the source (R200): a claim to be carried over to the software takes as a premise that no
command completed with another. -/
def Code.inSource : Code → Bool
  | .ok => true
  | .invalidArgument => true
  | .noFilter => false
  | .capacityExceeded => false
  | .illegalCommand => false
  | .keyTooLong => false

end Sys2Proof.Machine
end

