-- ==== Sys2Proof/Certificates/Slice0/Obligations.lean ====
section
/-! DEFINITION. The statements about the block, each from a rule of spec/ or from its sections. -/

open Sys2Proof Sys2Proof.Machine

/-! ### Encoding (30_encoding.md) -/

/-- Decoding the word of a command gives the command, and encoding what a word decodes to gives the word (R82, R83): no bit of an
encoding is dropped, and no two words mean one command. -/
def Obligations.DecodeEncodeRoundTrip : Prop :=
  (∀ i : Instr, i.wellFormed = true → decode (encode i) = .command i) ∧
  (∀ (w : Word) (i : Instr), decode w = .command i → i.wellFormed = true ∧ encode i = w)

/-- R83: decoding is total, exactly eight words decode, each to its command; every other word completes with
`ILLEGAL_COMMAND`; and a word decodes to a command exactly when it selects a row of the opcode table. -/
def Obligations.ExactlyEightWordsDecode : Prop :=
  (∀ (w : Word) (i : Instr), decode w = .command i ↔
    (w = 0x00000001#32 ∧ i = .hash) ∨ (w = 0x00000002#32 ∧ i = .fmix) ∨
    (w = 0x00000003#32 ∧ i = .create false) ∨ (w = 0x00000103#32 ∧ i = .create true) ∨
    (w = 0x00000004#32 ∧ i = .createCap false) ∨ (w = 0x00000104#32 ∧ i = .createCap true) ∨
    (w = 0x00000005#32 ∧ i = .insert) ∨ (w = 0x00000006#32 ∧ i = .query)) ∧
  (∀ (w : Word) (s : State),
    w ∉ [0x00000001#32, 0x00000002#32, 0x00000003#32, 0x00000103#32, 0x00000004#32, 0x00000104#32, 0x00000005#32,
      0x00000006#32] →
    runCommand w s = .next { s with err := .illegalCommand, pending := none }) ∧
  (∀ w : Word, (∃ i, decode w = .command i) ↔ ∃ r ∈ opcodeTable, w &&& r.mask = r.pattern)

/-- R89: exactly which words are illegal, read from the bits as a number, and what an illegal word does. -/
def Obligations.IllegalWordChangesOnlyErr : Prop :=
  (∀ w : Word, (∃ why, decode w = .illegal why) ↔
    (w.toNat % 16 = 0 ∨ 7 ≤ w.toNat % 16 ∨ w.toNat / 16 % 16 ≠ 0 ∨ w.toNat / 512 ≠ 0 ∨
      (w.toNat / 256 % 2 = 1 ∧ (w.toNat % 16 = 1 ∨ w.toNat % 16 = 2 ∨ w.toNat % 16 = 5 ∨ w.toNat % 16 = 6)))) ∧
  (∀ (w : Word) (why : Illegal) (s : State), decode w = .illegal why →
    runCommand w s = .next { s with err := .illegalCommand, pending := none })

/-- Words written out from the table of R82 decode to the commands they stand for (95_test_vectors.md section 2.10). -/
def Obligations.WordsOfEachFamilyDecode : Prop :=
  decode 0x00000001#32 = .command .hash ∧ decode 0x00000103#32 = .command (.create true) ∧
  decode 0x00000004#32 = .command (.createCap false) ∧ decode 0x00000005#32 = .command .insert ∧
  decode 0x00000000#32 = .illegal .unassignedOp ∧ decode 0x00000105#32 = .illegal .fastNotAllowed

/-! ### The step, and the two agents (R20, R22, R80, R229) -/

/-- A step runs the pending command: `exec` of it, at the state with the head of the schedule (the model's own, log entry 3)
taken off; and a placed word is run by the very next step (log entry 1). -/
def Obligations.StepRunsDecodedCommand : Prop :=
  (∀ (s : State) (w : Word) (i : Instr), s.pending = some w → s.nextAgent = .block → decode w = .command i →
    step s = exec i { s with schedule := s.schedule.tail }) ∧
  (∀ (s : State) (w : Word) (why : Illegal), s.pending = some w → s.nextAgent = .block → decode w = .illegal why →
    step s = .next { s with schedule := s.schedule.tail, err := .illegalCommand, pending := none }) ∧
  (∀ (s : State) (i : Instr),
    step (s.withFetchWord 32 (encode i).toNat) = exec i (s.withFetchWord 32 (encode i).toNat))

/-- Every command completes (R227): from every state, with any word, in a next state that is not busy and holds a completion
code that is one of 0 to 5 (R190); and the only steps that stop at all are host transactions outside the address map. -/
def Obligations.EveryCommandCompletes : Prop :=
  (∀ (w : Word) (s : State), ∃ t, runCommand w s = .next t ∧ t.busy = false ∧ t.err.number.toNat ≤ 5) ∧
  (∀ s : State, (∃ t, step s = .next t) ∨
    (s.hostMoves = true ∧ ∃ e es, s.inbox = e :: es ∧ e.wellFormed s.params = false ∧ ∃ r, step s = .refused r))

/-- R229, from a state with no command pending: a write of a word to `CMD` and the `WAIT` after it leave what the atomic
model leaves, whatever turns the schedule gives the host meanwhile. (The schedule, the inbox and `readData` are the model's own.) -/
def Obligations.TwoPhaseAgreesWithAtomic : Prop :=
  ∀ (s u : State) (w : Word) (es : List HostEvent),
    s.pending = none → s.inbox = .write 0x000 w :: .wait :: es →
    runCommand w s = .next u →
    ∃ n, Host.Core.run Sys2Proof.core n s = .next { u with
      inbox := es, readData := u.statusWord, schedule := (s.schedule.dropWhile (· == .host)).tail }

/-- `STATUS.BUSY` (R23): set only by a `CMD` write, cleared only by the completion of the command or by reset, read by no
command, 0 at reset. The `CMD` write changes nothing but the pending command, and a `WAIT` nothing of the block (R57, R93). -/
def Obligations.BusyFollowsCommand : Prop :=
  (∀ s t : State, step s = .next t → s.busy = false → t.busy = true → ∃ v es, s.inbox = .write 0x000 v :: es) ∧
  (∀ (s : State) (v : Word) (es : List HostEvent), s.busy = false → s.inbox = .write 0x000 v :: es →
    step s = .next { s with inbox := es, pending := some v } ∧ State.busy { s with inbox := es, pending := some v } = true) ∧
  (∀ (s : State) (es : List HostEvent), s.inbox = .wait :: es →
    (s.busy = false → step s = .next { s with inbox := es, readData := s.statusWord }) ∧
    (s.busy = true → s.nextAgent = .host →
      step s = .next { s with schedule := s.schedule.tail, readData := s.statusWord })) ∧
  (∀ s t : State, step s = .next t → s.busy = true →
    (t.busy = false ↔ (s.nextAgent = .block ∨ s.resetNext = true))) ∧
  (∀ (i : Instr) (s : State) (p : Option Word), exec i { s with pending := p } = exec i s) ∧
  State.reset.busy = false

/-! ### Meanings, complete (R120, R121, R140, R144, R166, R168) -/

/-- `HASH` (R120): its word, and its next state in every state. -/
def Obligations.HashExecutes : Prop :=
  decode 0x00000001#32 = .command .hash ∧
  ∀ s : State,
    (unsigned s.keyLen ≤ s.params.keyMax →
      exec .hash s = .next { s with result := murmur3 s.key, err := .ok, pending := none }) ∧
    (s.params.keyMax < unsigned s.keyLen → exec .hash s = .next { s with err := .keyTooLong, pending := none }) ∧
    (s.keyLen = 0 → exec .hash s = .next { s with result := 0, err := .ok, pending := none }) ∧
    (s.keyLen = 3 → 3 ≤ s.params.keyMax → s.keyByte 0 = 0x61 → s.keyByte 1 = 0x62 → s.keyByte 2 = 0x63 →
      exec .hash s = .next { s with result := 0xb3dd93fa#32, err := .ok, pending := none })

/-- `FMIX` (R121): its word, and its next state in every state. -/
def Obligations.FmixExecutes : Prop :=
  decode 0x00000002#32 = .command .fmix ∧
  ∀ s : State,
    exec .fmix s = .next { s with result := finalizeMix s.arg0 s.arg1, err := .ok, pending := none } ∧
    (s.arg0 = s.arg1 → exec .fmix s = .next { s with result := 0, err := .ok, pending := none }) ∧
    (s.arg0 = 0x3c2569b2#32 → s.arg1 = 1 → exec .fmix s = .next { s with result := 0x382472b3#32, err := .ok, pending := none })

/-- `CREATE` (R140): M = `s(ARG0)`, k = `s(ARG1)`; the two errors change `STATUS` alone, and a success leaves M bits,
`BITS[0]` to `BITS[M − 1]`, that are all 0, the three filter registers and `VALID`, and every other part of the state as it was. -/
def Obligations.CreateExecutes : Prop :=
  decode 0x00000003#32 = .command (.create false) ∧ decode 0x00000103#32 = .command (.create true) ∧
  ∀ (f : Bool) (s : State),
    (s.arg0.toInt ≤ 0 ∨ s.arg1.toInt ≤ 0 →
      exec (.create f) s = .next { s with err := .invalidArgument, pending := none }) ∧
    (0 < s.arg0.toInt → 0 < s.arg1.toInt → (s.params.mMax : Int) < s.arg0.toInt →
      exec (.create f) s = .next { s with err := .capacityExceeded, pending := none }) ∧
    (0 < s.arg0.toInt → 0 < s.arg1.toInt → s.arg0.toInt ≤ (s.params.mMax : Int) →
      ∃ t, exec (.create f) s = .next t ∧ (∀ p, p < unsigned t.numBits → bitAt t.bits p = false) ∧
        t = { s with bits := t.bits, numBits := s.arg0, numHash := s.arg1, fast := f, valid := true, err := .ok, pending := none }) ∧
    (s.arg0 = 1 → s.arg1 = 2 → 1 ≤ s.params.mMax →
      ∃ t, exec (.create true) s = .next t ∧ t.statusWord = 0x00000002#32 ∧ t.numBits = 1 ∧ t.numHash = 2 ∧ t.modeWord = 1 ∧
        bitAt t.bits 0 = false)

/-- `CREATE_CAP` (R144, R147): n = `s(ARG0)`, P = `ARG3 ++ ARG2`; with `(M, k) = SIZING(n, P)` its next state in every state,
and the worked example of R144 with `SIZING_REF`. -/
def Obligations.CreateCapExecutes : Prop :=
  decode 0x00000004#32 = .command (.createCap false) ∧ decode 0x00000104#32 = .command (.createCap true) ∧
  (∀ s : State, s.params.sizing = .reference → 7299 ≤ s.params.mMax →
    s.arg0 = 0x000003E8#32 → s.arg3 = 0x3F9EB851#32 → s.arg2 = 0xEB851EB8#32 →
    ∃ t, exec (.createCap false) s = .next t ∧ t.numBits = 0x00001C83#32 ∧ t.numHash = 5 ∧ t.modeWord = 0 ∧
      t.statusWord = 0x00000002#32) ∧
  ∀ (f : Bool) (s : State) (m k : Int),
    Params.sizingOf s.params s.arg0.toInt (s.arg3 ++ s.arg2) = (m, k) →
    (s.arg0.toInt ≤ 0 → exec (.createCap f) s = .next { s with err := .invalidArgument, pending := none }) ∧
    (¬ (0x0000000000000001 ≤ (s.arg3 ++ s.arg2).toNat ∧ (s.arg3 ++ s.arg2).toNat ≤ 0x3FEFFFFFFFFFFFFF) →
      exec (.createCap f) s = .next { s with err := .invalidArgument, pending := none }) ∧
    (0 < s.arg0.toInt → 0x0000000000000001 ≤ (s.arg3 ++ s.arg2).toNat → (s.arg3 ++ s.arg2).toNat ≤ 0x3FEFFFFFFFFFFFFF →
      (m ≤ 0 ∨ k ≤ 0 → exec (.createCap f) s = .next { s with err := .invalidArgument, pending := none }) ∧
      (0 < m → 0 < k → (s.params.mMax : Int) < m ∨ 2147483647 < k →
        exec (.createCap f) s = .next { s with err := .capacityExceeded, pending := none }) ∧
      (0 < m → 0 < k → m ≤ (s.params.mMax : Int) → k ≤ 2147483647 →
        ∃ t, exec (.createCap f) s = .next t ∧ (∀ p, p < unsigned t.numBits → bitAt t.bits p = false) ∧
          t = { s with bits := t.bits, numBits := BitVec.ofInt 32 m, numHash := BitVec.ofInt 32 k, fast := f, valid := true,
                       err := .ok, pending := none }))

/-- `INSERT` (R166): the two errors change `STATUS` alone; a success sets exactly the positions of the key, and `RESULT` is 1
exactly when one of them was 0. -/
def Obligations.InsertExecutes : Prop :=
  decode 0x00000005#32 = .command .insert ∧
  ∀ s : State,
    (s.valid = false → exec .insert s = .next { s with err := .noFilter, pending := none }) ∧
    (s.valid = true → s.params.keyMax < unsigned s.keyLen →
      exec .insert s = .next { s with err := .keyTooLong, pending := none }) ∧
    (s.valid = true → unsigned s.keyLen ≤ s.params.keyMax →
      ∃ t, exec .insert s = .next t ∧
        (∀ p, bitAt t.bits p = true ↔ (bitAt s.bits p = true ∨ p ∈ s.positions)) ∧
        ((∃ p ∈ s.positions, bitAt s.bits p = false) → t.result = 1) ∧
        ((∀ p ∈ s.positions, bitAt s.bits p = true) → t.result = 0 ∧ t.bits = s.bits) ∧
        t = { s with bits := t.bits, result := t.result, err := .ok, pending := none }) ∧
    (s.valid = true → 3 ≤ s.params.keyMax → s.numBits = 64 → s.numHash = 3 → s.fast = false → s.key = [0x61, 0x62, 0x63] →
      (∀ p, bitAt s.bits p = false) →
      ∃ t u, exec .insert s = .next t ∧ (∀ p, bitAt t.bits p = true ↔ p = 57 ∨ p = 5 ∨ p = 37) ∧ t.result = 1 ∧
        exec .insert t = .next u ∧ u.result = 0)

/-- `QUERY` (R168): the two errors change `STATUS` alone; a success sets `RESULT` to 1 exactly when all k positions of the key
hold 1, to 0 exactly when one holds 0, and no bit changes. -/
def Obligations.QueryExecutes : Prop :=
  decode 0x00000006#32 = .command .query ∧
  ∀ s : State,
    (s.valid = false → exec .query s = .next { s with err := .noFilter, pending := none }) ∧
    (s.valid = true → s.params.keyMax < unsigned s.keyLen →
      exec .query s = .next { s with err := .keyTooLong, pending := none }) ∧
    (s.valid = true → unsigned s.keyLen ≤ s.params.keyMax →
      ((∀ p ∈ s.positions, bitAt s.bits p = true) →
        exec .query s = .next { s with result := 1, err := .ok, pending := none }) ∧
      ((∃ p ∈ s.positions, bitAt s.bits p = false) →
        exec .query s = .next { s with result := 0, err := .ok, pending := none })) ∧
    (s.valid = true → 3 ≤ s.params.keyMax → s.numBits = 64 → s.numHash = 3 → s.fast = false →
      (∀ p, bitAt s.bits p = true ↔ p = 57 ∨ p = 5 ∨ p = 37) →
      (s.key = [0x61, 0x62, 0x63] → ∃ t, exec .query s = .next t ∧ t.result = 1) ∧
      (s.key = [0x61, 0x62, 0x64] → ∃ t, exec .query s = .next t ∧ t.result = 0))

/-! ### Frames -/

/-- What `HASH`, `FMIX` and `QUERY` leave unchanged: everything but `RESULT`, `STATUS.ERR` and `STATUS.BUSY` (R84, R120, R121,
R168). -/
def Obligations.HashFmixQueryFrame : Prop :=
  ∀ (i : Instr) (s t : State), i = .hash ∨ i = .fmix ∨ i = .query → exec i s = .next t →
    t = { s with result := t.result, err := t.err, pending := none } ∧
    (∀ j, t.keyByte j = s.keyByte j) ∧ (∀ p, bitAt t.bits p = bitAt s.bits p)

/-- What `CREATE` and `CREATE_CAP` leave unchanged (R84, R142): everything but `BITS`, the filter registers and `STATUS`; no byte
of `KEYBUF` changes. -/
def Obligations.ConstructionFrame : Prop :=
  ∀ (f : Bool) (s t : State), exec (.create f) s = .next t ∨ exec (.createCap f) s = .next t →
    t = { s with bits := t.bits, numBits := t.numBits, numHash := t.numHash, fast := t.fast, valid := t.valid,
                 err := t.err, pending := none } ∧
    (∀ j, t.keyByte j = s.keyByte j) ∧
    (t.err ≠ .ok → ∀ p, bitAt t.bits p = bitAt s.bits p)

/-- What `INSERT` leaves unchanged (R84, R166): everything but `BITS`, `RESULT` and `STATUS`; no byte of `KEYBUF` changes, and no
bit outside the positions of the key, computed as the meaning computes them. -/
def Obligations.InsertFrame : Prop :=
  ∀ s t : State, exec .insert s = .next t →
    t = { s with bits := t.bits, result := t.result, err := t.err, pending := none } ∧
    (∀ j, t.keyByte j = s.keyByte j) ∧
    (∀ p, p ∉ s.positions → bitAt t.bits p = bitAt s.bits p)

/-! ### Completion codes (60_exceptions.md) -/

/-- R190: every command ends with `BUSY` = 0 and one of the six codes, under its number, in `STATUS.ERR`; no other number is
written, and the host still has the operands. -/
def Obligations.CompletionCodeNumbers : Prop :=
  ∀ (w : Word) (s : State), ∃ t, runCommand w s = .next t ∧ t.busy = false ∧
    (t.err = .ok ↔ t.statusWord.extractLsb' 4 4 = 0) ∧
    (t.err = .invalidArgument ↔ t.statusWord.extractLsb' 4 4 = 1) ∧
    (t.err = .noFilter ↔ t.statusWord.extractLsb' 4 4 = 2) ∧
    (t.err = .capacityExceeded ↔ t.statusWord.extractLsb' 4 4 = 3) ∧
    (t.err = .illegalCommand ↔ t.statusWord.extractLsb' 4 4 = 4) ∧
    (t.err = .keyTooLong ↔ t.statusWord.extractLsb' 4 4 = 5) ∧
    (t.statusWord.extractLsb' 4 4).toNat ≤ 5 ∧
    t.arg0 = s.arg0 ∧ t.arg1 = s.arg1 ∧ t.arg2 = s.arg2 ∧ t.arg3 = s.arg3 ∧ t.keyLen = s.keyLen

/-- R196: which command can end with which code, complete; an undecodable word ends with `ILLEGAL_COMMAND`. -/
def Obligations.CodesPerCommandComplete : Prop :=
  (∀ (i : Instr) (c : Code), (∃ s t, exec i s = .next t ∧ t.err = c) ↔ c ∈ Instr.codes i) ∧
  (∀ (w : Word) (why : Illegal) (s t : State), decode w = .illegal why → runCommand w s = .next t → t.err = .illegalCommand)

/-- R197: what `raise` does. A command that ends with an error changes `STATUS.ERR`, clears `STATUS.BUSY`, and nothing else. -/
def Obligations.ErrorChangesOnlyStatus : Prop :=
  ∀ (w : Word) (s t : State), runCommand w s = .next t → t.err ≠ .ok → t = { s with err := t.err, pending := none }

/-- R191: `INVALID_ARGUMENT` is raised exactly so, and by no other command. -/
def Obligations.InvalidArgumentExactlyWhen : Prop :=
  ∀ (i : Instr) (s t : State), exec i s = .next t →
    (t.err = .invalidArgument ↔
      (∃ f, i = .create f) ∧ (s.arg0.toInt ≤ 0 ∨ s.arg1.toInt ≤ 0) ∨
      (∃ f, i = .createCap f) ∧
        (s.arg0.toInt ≤ 0 ∨ inOpenUnit (s.arg3 ++ s.arg2) = false ∨
          (Params.sizingOf s.params s.arg0.toInt (s.arg3 ++ s.arg2)).1 ≤ 0 ∨
          (Params.sizingOf s.params s.arg0.toInt (s.arg3 ++ s.arg2)).2 ≤ 0))

/-- R192: `NO_FILTER` is raised exactly by `INSERT` and `QUERY` when `VALID` is 0, before anything else is examined. -/
def Obligations.NoFilterExactlyWhen : Prop :=
  ∀ (i : Instr) (s t : State), exec i s = .next t →
    (t.err = .noFilter ↔ (i = .insert ∨ i = .query) ∧ s.valid = false)

/-- R193, in the order of R198: `CAPACITY_EXCEEDED` is raised exactly so. -/
def Obligations.CapacityExceededExactlyWhen : Prop :=
  ∀ (i : Instr) (s t : State), exec i s = .next t →
    (t.err = .capacityExceeded ↔
      (∃ f, i = .create f) ∧ 0 < s.arg1.toInt ∧ 0 < s.arg0.toInt ∧ (s.params.mMax : Int) < s.arg0.toInt ∨
      (∃ f, i = .createCap f) ∧ 0 < s.arg0.toInt ∧ inOpenUnit (s.arg3 ++ s.arg2) = true ∧
        ∃ m k, Params.sizingOf s.params s.arg0.toInt (s.arg3 ++ s.arg2) = (m, k) ∧ 0 < m ∧ 0 < k ∧
          ((s.params.mMax : Int) < m ∨ 2147483647 < k))

/-- R195, in the order of R198: `KEY_TOO_LONG` is raised exactly so. -/
def Obligations.KeyTooLongExactlyWhen : Prop :=
  ∀ (i : Instr) (s t : State), exec i s = .next t →
    (t.err = .keyTooLong ↔
      (i = .hash ∨ (i = .insert ∨ i = .query) ∧ s.valid = true) ∧ s.params.keyMax < unsigned s.keyLen)

/-- R198: the order of the checks when several conditions hold at once. -/
def Obligations.ChecksInOrder : Prop :=
  (∀ (w : Word) (why : Illegal) (s : State), decode w = .illegal why →
    runCommand w s = .next { s with err := .illegalCommand, pending := none }) ∧
  (∀ (i : Instr) (s : State), i = .insert ∨ i = .query → s.valid = false → s.params.keyMax < unsigned s.keyLen →
    exec i s = .next { s with err := .noFilter, pending := none }) ∧
  (∀ s : State, s.params.keyMax < unsigned s.keyLen → exec .hash s = .next { s with err := .keyTooLong, pending := none }) ∧
  (∀ (f : Bool) (s : State), (s.params.mMax : Int) < s.arg0.toInt → s.arg1.toInt ≤ 0 →
    exec (.create f) s = .next { s with err := .invalidArgument, pending := none }) ∧
  (∀ (f : Bool) (s : State) (m k : Int), s.arg0.toInt ≤ 0 ∨ inOpenUnit (s.arg3 ++ s.arg2) = false ∨ m ≤ 0 ∨ k ≤ 0 →
    Params.sizingOf s.params s.arg0.toInt (s.arg3 ++ s.arg2) = (m, k) → (s.params.mMax : Int) < m ∨ 2147483647 < k →
    exec (.createCap f) s = .next { s with err := .invalidArgument, pending := none })

/-- R25: `STATUS.ERR` is written by every command, whatever it held, by nothing but a command or reset, and read by no command. -/
def Obligations.ErrIsTheLastCompletionCode : Prop :=
  (∀ (i : Instr) (s : State) (c : Code), exec i { s with err := c } = exec i s) ∧
  (∀ (w : Word) (s : State) (c : Code), runCommand w { s with err := c } = runCommand w s) ∧
  (∀ s t : State, step s = .next t → s.busy = false ∨ s.nextAgent = .host → s.resetNext = false → t.err = s.err) ∧
  State.reset.err = .ok

/-! ### Registers and reset (10_state.md, 70_reset_and_hazards.md) -/

/-- The state after reset (R38, 10_state.md section 8): every register with a reset value holds it, and `KEYBUF` holds free values.
(What `BITS` holds is the model's choice, log entry 10, and stands in no clause; the parameters are those of log entry 4.) -/
def Obligations.ResetRegisters : Prop :=
  State.reset.statusWord = 0 ∧ State.reset.arg0 = 0 ∧ State.reset.arg1 = 0 ∧ State.reset.arg2 = 0 ∧ State.reset.arg3 = 0 ∧
  State.reset.keyLen = 0 ∧ State.reset.result = 0 ∧ State.reset.numBits = 0 ∧ State.reset.numHash = 0 ∧
  State.reset.modeWord = 0 ∧ (∀ j, State.reset.keyByte j = Config.keyByteAtReset 0 j)

/-- The reset event (R220) may be taken at any time the host moves: every register takes its reset value, a pending command is
abandoned, `KEYBUF` holds the free values of a new draw. (The inbox, the schedule and the counter are the model's own.) -/
def Obligations.ResetEventResets : Prop :=
  ∀ (s : State) (es : List HostEvent), s.hostMoves = true → s.inbox = .reset :: es →
    ∃ t, step s = .next t ∧ t.busy = false ∧ t.inbox = es ∧ t.params = s.params ∧
      (∀ r, t.readReg r = 0) ∧ (∀ j, t.keyByte j = Config.keyByteAtReset (s.resets + 1) j)

/-- R21: the five operand registers change only by a host write to their own offset, to the value written, or by reset, and such
a write changes nothing else: no other register, no byte of `KEYBUF`, no bit (R57); `RESULT` changes only by `HASH`, `FMIX`,
`INSERT` or `QUERY` completing with `OK`, or by reset; all six are 0 at reset. -/
def Obligations.GeneralRegistersKept : Prop :=
  (∀ (s t : State) (r : RegName), step s = .next t → s.resetNext = false →
    r ∈ [RegName.arg0, .arg1, .arg2, .arg3, .keyLen] → t.readReg r ≠ s.readReg r →
    s.busy = false ∧ ∃ es, s.inbox = .write (regOffset r) (t.readReg r) :: es) ∧
  (∀ (s : State) (r : RegName) (v : Word) (es : List HostEvent), s.busy = false →
    r ∈ [RegName.arg0, .arg1, .arg2, .arg3, .keyLen] → s.inbox = .write (regOffset r) v :: es →
    ∃ t, step s = .next t ∧ t.readReg r = v ∧ (∀ q, q ≠ r → t.readReg q = s.readReg q) ∧
      (∀ j, t.keyByte j = s.keyByte j) ∧ (∀ p, bitAt t.bits p = bitAt s.bits p) ∧
      t = { s with inbox := es, arg0 := t.arg0, arg1 := t.arg1, arg2 := t.arg2, arg3 := t.arg3, keyLen := t.keyLen }) ∧
  (∀ s t : State, step s = .next t → s.resetNext = false → t.result ≠ s.result →
    t.err = .ok ∧ ∃ i, s.commandNext i ∧ i ∈ [Instr.hash, .fmix, .insert, .query]) ∧
  (∀ r ∈ [RegName.arg0, .arg1, .arg2, .arg3, .keyLen, .result], State.reset.readReg r = 0)

/-- R24: `STATUS.VALID` is 1 after a construction that completed with `OK`, stays 1 until reset, becomes 1 in no other way, makes
`INSERT` and `QUERY` complete with `NO_FILTER` while it is 0, and is 0 at reset. -/
def Obligations.ValidFromConstructionToReset : Prop :=
  (∀ (i : Instr) (s t : State), Instr.constructs i = true → exec i s = .next t → t.err = .ok → t.valid = true) ∧
  (∀ s t : State, step s = .next t → s.valid = true → s.resetNext = false → t.valid = true) ∧
  (∀ s t : State, step s = .next t → s.valid = false → t.valid = true →
    t.err = .ok ∧ ∃ i, s.commandNext i ∧ Instr.constructs i = true) ∧
  (∀ (i : Instr) (s : State), i = .insert ∨ i = .query → s.valid = false →
    exec i s = .next { s with err := .noFilter, pending := none }) ∧
  State.reset.valid = false

/-- R31: between two successful constructions (and resets) `NUM_BITS`, `NUM_HASH` and `MODE` do not change, and M ≥ 1 and k ≥ 1
hold whenever `VALID` = 1: every step keeps that, and it holds at reset. -/
def Obligations.FilterRegistersFixed : Prop :=
  (∀ s t : State, step s = .next t → ¬ endsFilter s t →
    t.numBits = s.numBits ∧ t.numHash = s.numHash ∧ t.modeWord = s.modeWord) ∧
  (∀ s t : State, s.params.legal → step s = .next t →
    (s.valid = true → 1 ≤ s.numBits.toInt ∧ 1 ≤ s.numHash.toInt) →
    (t.valid = true → 1 ≤ t.numBits.toInt ∧ 1 ≤ t.numHash.toInt)) ∧
  State.reset.valid = false

/-- R36: no command but a successful construction changes a bit from 1 to 0, only `INSERT` changes one from 0 to 1, a successful
construction makes every bit of the filter 0, and no host transaction reaches `BITS` (R51). -/
def Obligations.BitsOnlyRise : Prop :=
  (∀ (i : Instr) (s t : State), exec i s = .next t → ¬ (Instr.constructs i = true ∧ t.err = .ok) →
    ∀ p, bitAt s.bits p = true → bitAt t.bits p = true) ∧
  (∀ (i : Instr) (s t : State) (p : Nat), exec i s = .next t → bitAt s.bits p = false → bitAt t.bits p = true → i = .insert) ∧
  (∀ (i : Instr) (s t : State), exec i s = .next t → Instr.constructs i = true → t.err = .ok →
    ∀ p, p < unsigned t.numBits → bitAt t.bits p = false) ∧
  (∀ s t : State, step s = .next t → s.hostMoves = true → s.resetNext = false → ∀ p, bitAt t.bits p = bitAt s.bits p)

/-- R27: the layout of `STATUS`; a read returns it and changes nothing else, a write is ignored, and it is 0 at reset. -/
def Obligations.StatusLayout : Prop :=
  (∀ s : State,
    s.statusWord.getLsbD 0 = s.busy ∧ s.statusWord.getLsbD 1 = s.valid ∧ s.statusWord.extractLsb' 2 2 = 0 ∧
    s.statusWord.extractLsb' 4 4 = s.err.number ∧ s.statusWord.extractLsb' 8 24 = 0 ∧
    hostRead 0x004 s = .next { s with readData := s.statusWord }) ∧
  (∀ (s : State) (v : Word), hostWrite 0x004 v s = .next s) ∧
  State.reset.statusWord = 0

/-- The values of `STATUS` a host that waits can read (95_test_vectors.md section 2.12): `0x22` is not among them. -/
def Obligations.StatusValuesReadable : Prop :=
  ∀ s : State, s.Inv → s.busy = false →
    s.statusWord ∈ [0x00000000#32, 0x00000002#32, 0x00000010#32, 0x00000012#32, 0x00000020#32, 0x00000030#32, 0x00000032#32,
      0x00000040#32, 0x00000042#32, 0x00000050#32, 0x00000052#32]

/-- The invariant of the state holds at reset. (That the registers hold these values is R38; the parameters are log entry 4's, and
that `BITS` holds no 1 is log entry 10's: R35 and U5 leave it open.) -/
def Obligations.ResetMeetsInvariant : Prop := State.reset.Inv

/-- Every step keeps the invariant: both memories stay in canonical form and inside their bounds (R34, R54), the filter registers
stay legal (R28, R29, R31), `NO_FILTER` stays with `VALID` = 0; and no step changes a parameter (R8, R20). That no bit at or above
`NUM_BITS` is 1, and none at all without a filter, is the model's choice (log entry 10): the spec leaves those bits open (R220, U5). -/
def Obligations.StepKeepsInvariant : Prop :=
  ∀ s t : State, s.Inv → step s = .next t → t.Inv ∧ t.params = s.params

/-! ### The port (20_memory.md, 43_accessors.md) -/

/-- R52: host access to the key buffer is by words with little-endian byte lanes. A byte changes in no other way: only by a host
write to its own word while not busy, or by reset (R34). -/
def Obligations.KeyBufferWordLanes : Prop :=
  (∀ (s : State) (w : Nat), s.busy = false → w < s.params.keyMax / 4 →
    (∀ v : Word, ∃ t, hostWrite (0x100 + 4 * w) v s = .next t ∧ t = { s with keybuf := t.keybuf } ∧
      (∀ j < 4, t.keyByte (4 * w + j) = v.extractLsb' (8 * j) 8) ∧
      (∀ i, i / 4 ≠ w → t.keyByte i = s.keyByte i) ∧
      hostRead (0x100 + 4 * w) t = .next { t with readData := v }) ∧
    hostRead (0x100 + 4 * w) s = .next { s with
      readData := s.keyByte (4 * w + 3) ++ s.keyByte (4 * w + 2) ++ s.keyByte (4 * w + 1) ++ s.keyByte (4 * w) }) ∧
  (∀ (s t : State) (j : Nat), step s = .next t → s.resetNext = false → t.keyByte j ≠ s.keyByte j →
    s.busy = false ∧ ∃ v es, s.inbox = .write (0x100 + 4 * (j / 4)) v :: es)

/-- R51, outside the key buffer, while not busy: what each offset reads and that reads change nothing else; which writes are
ignored; and every offset with a place is served, no other. -/
def Obligations.RegisterSpaceAccess : Prop :=
  ∀ s : State, s.busy = false →
    (∀ r, hostRead (regOffset r) s = .next { s with readData := s.readReg r }) ∧
    s.readReg .cmd = 0 ∧
    (∀ (off : Nat) (v : Word), 0x02C ≤ off → off < 0x100 → off % 4 = 0 →
      hostRead off s = .next { s with readData := 0 } ∧ hostWrite off v s = .next s) ∧
    (∀ (r : RegName) (v : Word), r ∈ [RegName.status, .result, .numBits, .numHash, .mode] →
      hostWrite (regOffset r) v s = .next s) ∧
    (∀ off v, (∃ t, hostWrite off v s = .next t) ↔ (off % 4 = 0 ∧ off < 0x100 + s.params.keyMax))

/-- R228: while `BUSY` = 1 a write to any offset changes nothing, a read of `STATUS` returns it with `BUSY` = 1 and `VALID` and
`ERR` as before the command, and a read of any other offset returns a value that is free and changes nothing of the block. -/
def Obligations.TransactionsWhileBusy : Prop :=
  ∀ s : State, s.busy = true →
    (∀ (off : Nat) (v : Word), offsetInBlock s.params off = true → hostWrite off v s = .next s) ∧
    hostRead 0x004 s = .next { s with readData := s.statusWord } ∧ s.statusWord.getLsbD 0 = true ∧
    s.statusWord.getLsbD 1 = s.valid ∧ s.statusWord.extractLsb' 4 4 = s.err.number ∧
    (∀ off : Nat, offsetInBlock s.params off = true → off ≠ 0x004 →
      hostRead off s = .next { s with readData := Config.busyRead s.draws, draws := s.draws + 1 })

/-- The bit array in words (R54): `BITS[p] <- 1` is `WORDS[p >> 5] <- WORDS[p >> 5] OR (1 << (p & 31))`, so it makes bit p 1 and
leaves every other bit. -/
def Obligations.BitArrayInWords : Prop :=
  ∀ (m : List (Nat × Word)) (p : Nat),
    bitAt m p = (bitsWord m (p / 32)).getLsbD (p % 32) ∧
    bitsWord (setBit m p) (p / 32) = bitsWord m (p / 32) ||| (1#32 <<< (p % 32)) ∧
    (∀ j, j ≠ p / 32 → bitsWord (setBit m p) j = bitsWord m j) ∧
    (∀ q, bitAt (setBit m p) q = (bitAt m q || q == p))

/-- `KEY <bytes>` (R94) loads the key: from a state with no command pending, its events are served one a step, and then the key
of R53 is the literal's bytes and only `KEYBUF` and `KEY_LEN` have changed (the inbox is the model's own). -/
def Obligations.KeyStatementLoadsKey : Prop :=
  ∀ (s : State) (b : KeyLit) (es : List HostEvent),
    s.params.legal → s.busy = false → b.wellFormed s.params = true → s.inbox = expandKey b ++ es →
    ∃ t, Host.Core.run Sys2Proof.core (expandKey b).length s = .next t ∧ t.key = keyBytes b ∧
      t = { s with keybuf := t.keybuf, keyLen := t.keyLen, inbox := es }

/-- Every well-formed statement of the notation (R91 to R95) expands to events the port can carry (R50); and what each statement
expands to, whole: a bare command (R92) to the write of its word to `CMD` (R82) and a `WAIT` (R93), a statement with operands to the
writes of its operands, in order, before that (R94, R95), a program to its statements' events (R96). -/
def Obligations.NotationExpandsWithinThePort : Prop :=
  (∀ (p : Params) (st : Stmt) (e : HostEvent), p.legal → st.wellFormed p = true → e ∈ expand st → e.wellFormed p = true) ∧
  expand (.bare .hash) = [.write 0x000 0x00000001, .wait] ∧ expand (.bare .fmix) = [.write 0x000 0x00000002, .wait] ∧
  expand (.bare (.create false)) = [.write 0x000 0x00000003, .wait] ∧
  expand (.bare (.create true)) = [.write 0x000 0x00000103, .wait] ∧
  expand (.bare (.createCap false)) = [.write 0x000 0x00000004, .wait] ∧
  expand (.bare (.createCap true)) = [.write 0x000 0x00000104, .wait] ∧
  expand (.bare .insert) = [.write 0x000 0x00000005, .wait] ∧ expand (.bare .query) = [.write 0x000 0x00000006, .wait] ∧
  (∀ a b : Int, expand (.fmix a b) =
    [.write 0x008 (BitVec.ofInt 32 a), .write 0x00C (BitVec.ofInt 32 b), .write 0x000 0x00000002, .wait]) ∧
  (∀ (m k : Int) (f : Option Bool), expand (.create m k f) =
    [.write 0x008 (BitVec.ofInt 32 m), .write 0x00C (BitVec.ofInt 32 k),
      .write 0x000 (if f = some true then 0x00000103 else 0x00000003), .wait]) ∧
  (∀ (n : Int) (d : Decimal) (f : Option Bool), expand (.createCap n d f) =
    [.write 0x008 (BitVec.ofInt 32 n), .write 0x010 ((nearestBinary64 d).extractLsb' 0 32),
      .write 0x014 ((nearestBinary64 d).extractLsb' 32 32),
      .write 0x000 (if f = some true then 0x00000104 else 0x00000004), .wait]) ∧
  (∀ b : KeyLit,
    expand (.key b) = ((List.range (((keyBytes b).length + 3) / 4)).map fun w => HostEvent.write (0x100 + 4 * w)
      ((keyBytes b).getD (4 * w + 3) 0 ++ (keyBytes b).getD (4 * w + 2) 0 ++ (keyBytes b).getD (4 * w + 1) 0 ++
        (keyBytes b).getD (4 * w) 0)) ++ [.write 0x018 (BitVec.ofNat 32 (keyBytes b).length)] ∧
    expand (.hash b) = expand (.key b) ++ [.write 0x000 0x00000001, .wait] ∧
    expand (.insert b) = expand (.key b) ++ [.write 0x000 0x00000005, .wait] ∧
    expand (.query b) = expand (.key b) ++ [.write 0x000 0x00000006, .wait]) ∧
  (∀ (r : RegName) (w off : Nat) (v : Int),
    expand (.wr (.reg r) v) = [.write (regOffset r) (BitVec.ofInt 32 v)] ∧
    expand (.wr (.keybuf w) v) = [.write (0x100 + 4 * w) (BitVec.ofInt 32 v)] ∧
    expand (.wr (.offset off) v) = [.write off (BitVec.ofInt 32 v)] ∧
    expand (.rd (.reg r)) = [.read (regOffset r)] ∧ expand (.rd (.keybuf w)) = [.read (0x100 + 4 * w)] ∧
    expand (.rd (.offset off)) = [.read off] ∧ expand .wait = [.wait]) ∧
  (∀ (st : Stmt) (p : List Stmt), expandProgram (st :: p) = expand st ++ expandProgram p)

/-! ### The hash engine (40_hash_engine.md) -/

/-- The primitives of R10 are those of 32-bit words: wraparound sum and product, logical shift, circular rotation. -/
def Obligations.PrimitivesOfWords : Prop :=
  (∀ a b : Word, add32 a b = a + b ∧ mul32 a b = a * b) ∧
  (∀ (a : Word) (r : Nat), r ≤ 31 → shr32 a r = a >>> r) ∧
  (∀ (a : Word) (r : Nat), 1 ≤ r → r ≤ 31 → rotl32 a r = a.rotateLeft r)

/-- R111 and R112: byte j of chunk c is byte 4·c + j of the message; byte j of the tail word is the trailing byte j, zero
beyond the tail, unsigned. -/
def Obligations.ChunkAndTailLanes : Prop :=
  ∀ (b : List Byte) (j : Nat), j < 4 →
    (∀ c, (chunk b c).extractLsb' (8 * j) 8 = b.getD (4 * c + j) 0) ∧
    (tailWord b).extractLsb' (8 * j) 8 = (if j < b.length % 4 then b.getD (4 * (b.length / 4) + j) 0 else 0)

/-- R118 as one pass over the bytes: a message of four bytes and more folds its first chunk and goes on with the rest, so the
accumulator can be built chunk by chunk (the equivalence of the indexed loop with a scan). -/
def Obligations.HashScansInOrder : Prop :=
  ∀ (b0 b1 b2 b3 : Byte) (rest pre : List Byte), pre.length % 4 = 0 →
    foldChunks (pre ++ b0 :: b1 :: b2 :: b3 :: rest) =
      ((List.range (rest.length / 4)).foldl (fun acc j => fold acc (chunk rest j))
        (fold (foldChunks pre) (b3 ++ b2 ++ b1 ++ b0)))

/-- R119: the standalone finalization, its identity with the last two lines of the hash (R118; the hash has a
meaning below 2^32 bytes, R116), and its corner cases. -/
def Obligations.FinalizeMixIdentity : Prop :=
  (∀ p l : Word, finalizeMix p l = fmix32 (p ^^^ l)) ∧
  (∀ b : List Byte, b.length < 2 ^ 32 → murmur3 b = finalizeMix (accumulate b) (BitVec.ofNat 32 b.length)) ∧
  (∀ x : Word, finalizeMix x x = 0) ∧ (∀ p : Word, finalizeMix p 0 = fmix32 p) ∧
  finalizeMix 0xb3dd93fa#32 0x00000003#32 = 0xbbebc7d9#32

/-! ### Hash-index derivation (42_filter_operations.md) -/

/-- R161: the decimal suffix of an index: 1 to 10 ASCII digits, no leading zero, whose value is the index. -/
def Obligations.DecimalSuffix : Prop :=
  (∀ i : Nat, i ≤ 2147483646 →
    1 ≤ (dec i).length ∧ (dec i).length ≤ 10 ∧ (∀ d ∈ dec i, 0x30 ≤ d.toNat ∧ d.toNat ≤ 0x39) ∧
    (dec i).foldl (fun n d => 10 * n + (d.toNat - 0x30)) 0 = i ∧ (i ≠ 0 → (dec i).head? ≠ some 0x30)) ∧
  dec 0 = [0x30] ∧ dec 7 = [0x37] ∧ dec 10 = [0x31, 0x30] ∧
  dec 2147483646 = [0x32, 0x31, 0x34, 0x37, 0x34, 0x38, 0x33, 0x36, 0x34, 0x36]

/-- R164: the position of a hash is below M; the mask clears bit 31 and is no absolute value. -/
def Obligations.PositionOfHash : Prop :=
  (∀ (h : Word) (m : Nat), 1 ≤ m → position h m < m ∧ position h m = h.toNat % 2 ^ 31 % m) ∧
  (∀ h : Word, position h 1 = 0) ∧
  and32 0x80000000#32 0x7FFFFFFF#32 = 0 ∧ and32 0xFFFFFFFF#32 0x7FFFFFFF#32 = 0x7FFFFFFF#32 ∧
  position 0x330a2779#32 64 = 57 ∧ position 0xb3dd93fa#32 64 = 58

/-- R165: pos_i is the position of H_i, with H_i that of the filter's mode (R162, R163), for i = 0 .. k − 1. -/
def Obligations.PositionsOfAKey : Prop :=
  (∀ (key : List Byte) (m k : Nat) (fast : Bool) (i : Nat), i < k →
    (positions key m k fast).length = k ∧
    (positions key m k fast)[i]? = some (position (if fast then hFast key i else hStd key i) m)) ∧
  positions [0x61, 0x62, 0x63] 64 3 false = [57, 5, 37] ∧ positions [0x61, 0x62, 0x63] 64 3 true = [58, 25, 29]

/-! ### What a command cannot learn (R33, R53, R84, R148) -/

/-- R53: a command's outcome does not depend on the bytes of `KEYBUF` at and above `KEY_LEN`, and it leaves the buffer as it was. -/
def Obligations.KeyBytesBeyondLengthIgnored : Prop :=
  ∀ (i : Instr) (s t : State) (kb : List Host.Cell),
    (∀ j, j < unsigned s.keyLen → State.keyByte { s with keybuf := kb } j = s.keyByte j) →
    exec i s = .next t → exec i { s with keybuf := kb } = .next { t with keybuf := kb }

/-- R84, what is not read: `CREATE` does not read `ARG2`, `ARG3`, `KEY_LEN` or `KEYBUF`; `CREATE_CAP` does not read `ARG1`,
`KEY_LEN` or `KEYBUF`; `FMIX` reads neither `KEYBUF` nor `KEY_LEN`, nor `ARG2` or `ARG3`; the key commands read no `ARG` register;
no command reads `RESULT`; and `HASH`, `FMIX`, `CREATE` and `CREATE_CAP` read nothing of the filter: `VALID`, `NUM_BITS`,
`NUM_HASH`, `MODE`, `BITS`. -/
def Obligations.OperandsNotInTheFrameUnread : Prop :=
  (∀ (s t : State) (x y z l : Word) (kb : List Host.Cell) (f : Bool),
    (exec (.create f) s = .next t →
      exec (.create f) { s with arg2 := x, arg3 := y, keyLen := l, keybuf := kb } =
        .next { t with arg2 := x, arg3 := y, keyLen := l, keybuf := kb }) ∧
    (exec (.createCap f) s = .next t →
      exec (.createCap f) { s with arg1 := x, keyLen := l, keybuf := kb } =
        .next { t with arg1 := x, keyLen := l, keybuf := kb }) ∧
    (exec .fmix s = .next t →
      exec .fmix { s with arg2 := x, arg3 := y, keyLen := l, keybuf := kb } =
        .next { t with arg2 := x, arg3 := y, keyLen := l, keybuf := kb }) ∧
    (∀ i ∈ [Instr.hash, .insert, .query], exec i s = .next t →
      exec i { s with arg0 := x, arg1 := y, arg2 := z, arg3 := l } =
        .next { t with arg0 := x, arg1 := y, arg2 := z, arg3 := l })) ∧
  (∀ (i : Instr) (s t : State) (r : Word), exec i s = .next t →
    exec i { s with result := r } =
      .next { t with result := if t.err = .ok ∧ Instr.constructs i = false then t.result else r }) ∧
  (∀ (i : Instr) (s t : State) (v f : Bool) (m k : Word) (b : List (Nat × Word)), exec i s = .next t →
    (i = .hash ∨ i = .fmix ∨ Instr.constructs i = true ∧ t.err ≠ .ok →
      exec i { s with valid := v, numBits := m, numHash := k, fast := f, bits := b } =
        .next { t with valid := v, numBits := m, numHash := k, fast := f, bits := b }) ∧
    (Instr.constructs i = true → t.err = .ok →
      ∃ u, exec i { s with valid := v, numBits := m, numHash := k, fast := f, bits := b } = .next u ∧
        u = { t with bits := u.bits } ∧ ∀ p, p < unsigned t.numBits → bitAt u.bits p = bitAt t.bits p))

/-- R148 and R221: while `VALID` = 0 no command reads `BITS`: with other contents the outcome is the same, and a construction
leaves the same bits below its `NUM_BITS`. -/
def Obligations.UnconstructedBitsUnread : Prop :=
  ∀ (i : Instr) (s t : State) (b : List (Nat × Word)), s.valid = false → exec i s = .next t →
    ∃ u, exec i { s with bits := b } = .next u ∧ u = { t with bits := u.bits } ∧
      (t.valid = false → u.bits = b ∧ t.bits = s.bits) ∧
      (t.valid = true → ∀ p, p < unsigned t.numBits → bitAt u.bits p = bitAt t.bits p)

/-! ### The filter (41_filter_construction.md, 42_filter_operations.md) -/

/-- R143: a construction that fails writes `STATUS.ERR` (and ends the command) and nothing else, so an older filter still answers
as before; one that succeeds replaces the filter by an empty one with its own parameters. -/
def Obligations.ConstructionReplacesOrKeeps : Prop :=
  ∀ (i : Instr) (s t : State), Instr.constructs i = true → exec i s = .next t →
    (t.err ≠ .ok → t = { s with err := t.err, pending := none } ∧
      (∀ j, t.keyByte j = s.keyByte j) ∧ (∀ p, bitAt t.bits p = bitAt s.bits p) ∧
      ∀ u, exec .query s = .next u → exec .query t = .next u) ∧
    (t.err = .ok → t.valid = true ∧ (i = .create t.fast ∨ i = .createCap t.fast) ∧
      ∀ p, p < unsigned t.numBits → bitAt t.bits p = false)

/-- R167: after an `INSERT` of a key completed with `OK`, all its positions hold 1 and every later `INSERT` of the same key into
the same filter completes with `OK`, returns 0 and changes no bit, whatever ran in between; the first on a fresh filter returns 1. -/
def Obligations.SecondInsertReturnsFalse : Prop :=
  (∀ s t : State, exec .insert s = .next t → t.err = .ok →
    (∀ p ∈ s.positions, bitAt t.bits p = true) ∧
    (1 ≤ unsigned s.numHash → (∀ p, bitAt s.bits p = false) → t.result = 1)) ∧
  ∀ s t u : State, exec .insert s = .next t → t.err = .ok → SameFilterRun t u → u.key = s.key →
    ∃ v, exec .insert u = .next v ∧ v.err = .ok ∧ v.result = 0 ∧ v.bits = u.bits

/-- R169: no false negatives. If an `INSERT` of a key completed with `OK`, every later `QUERY` of the same key on the same filter,
with no successful construction and no reset in between, leaves `RESULT` = 1, in either mode. -/
def Obligations.NoFalseNegatives : Prop :=
  ∀ s t u : State, exec .insert s = .next t → t.err = .ok → SameFilterRun t u → u.key = s.key →
    ∃ v, exec .query u = .next v ∧ v.err = .ok ∧ v.result = 1

/-- On a filter just constructed every `QUERY` gives 0, whatever key the host then loads (R168, corner case), for every k ≥ 1. -/
def Obligations.FreshFilterContainsNothing : Prop :=
  ∀ (i : Instr) (s t : State) (kb : List Host.Cell) (l : Word), s.params.legal → Instr.constructs i = true →
    exec i s = .next t → t.err = .ok → unsigned l ≤ t.params.keyMax →
    exec .query { t with keybuf := kb, keyLen := l } =
      .next { t with keybuf := kb, keyLen := l, result := 0, err := .ok, pending := none }

/-- R171: no filter is ever full: with a filter and a key that fits, `INSERT` completes with `OK`; on a filter whose bits are all 1
it returns 0. -/
def Obligations.InsertNeverRunsOutOfCapacity : Prop :=
  ∀ s : State, s.valid = true → unsigned s.keyLen ≤ s.params.keyMax →
    ∃ t, exec .insert s = .next t ∧ t.err = .ok ∧
      ((∀ p, p < unsigned s.numBits → bitAt s.bits p = true) → 1 ≤ unsigned s.numBits → t.result = 0)

/-! ### Sizing (41_filter_construction.md) -/

/-- R86: the accepted patterns of P are exactly the binary64 numbers strictly between 0 and 1. -/
def Obligations.ProbabilityStrictlyBetween : Prop :=
  ∀ p : BitVec 64, inOpenUnit p = true ↔ ∃ q, binary64Value p = some q ∧ 0 < q ∧ q < 1

/-- The bounds R145 gives: for n ≥ 1 and 0 < p < 1 the reference sizing has M ≥ 1 and k ≥ 1, over the reals and as the model
computes it. -/
def Obligations.ReferenceSizingPositive : Prop :=
  (∀ (n : Int) (p : BitVec 64) (m k : Int), 1 ≤ n → inOpenUnit p = true → IsSizingRef n p m k → 1 ≤ m ∧ 1 ≤ k) ∧
  (∀ (c : Params) (n : Int) (p : BitVec 64), c.sizing = .reference → 1 ≤ n → inOpenUnit p = true →
    1 ≤ (Params.sizingOf c n p).1 ∧ 1 ≤ (Params.sizingOf c n p).2)

/-- What the model computes for `SIZING_REF` is the pair of R145 over the reals, for every n that `ARG0` can hold and every accepted
pattern, and R145 gives no other pair. -/
def Obligations.ComputedSizingIsReference : Prop :=
  ∀ (c : Params) (n : Int) (p : BitVec 64), c.sizing = .reference → 1 ≤ n → n ≤ 2147483647 → inOpenUnit p = true →
    IsSizingRef n p (Params.sizingOf c n p).1 (Params.sizingOf c n p).2 ∧
    ∀ m k, IsSizingRef n p m k → Params.sizingOf c n p = (m, k)
end

