-- ==== Sys2Proof/Laws/State.lean ====
section
/-! SUPPORT. One lemma per field per update of State, each true by rfl, so that no later proof unfolds a record update. -/

namespace Sys2Proof.Machine

@[simp] theorem State.complete_params (s : State) (c : Code) : (s.complete c).params = s.params := rfl
@[simp] theorem State.complete_arg0 (s : State) (c : Code) : (s.complete c).arg0 = s.arg0 := rfl
@[simp] theorem State.complete_arg1 (s : State) (c : Code) : (s.complete c).arg1 = s.arg1 := rfl
@[simp] theorem State.complete_arg2 (s : State) (c : Code) : (s.complete c).arg2 = s.arg2 := rfl
@[simp] theorem State.complete_arg3 (s : State) (c : Code) : (s.complete c).arg3 = s.arg3 := rfl
@[simp] theorem State.complete_keyLen (s : State) (c : Code) : (s.complete c).keyLen = s.keyLen := rfl
@[simp] theorem State.complete_result (s : State) (c : Code) : (s.complete c).result = s.result := rfl
@[simp] theorem State.complete_numBits (s : State) (c : Code) : (s.complete c).numBits = s.numBits := rfl
@[simp] theorem State.complete_numHash (s : State) (c : Code) : (s.complete c).numHash = s.numHash := rfl
@[simp] theorem State.complete_fast (s : State) (c : Code) : (s.complete c).fast = s.fast := rfl
@[simp] theorem State.complete_valid (s : State) (c : Code) : (s.complete c).valid = s.valid := rfl
@[simp] theorem State.complete_err (s : State) (c : Code) : (s.complete c).err = c := rfl
@[simp] theorem State.complete_keybuf (s : State) (c : Code) : (s.complete c).keybuf = s.keybuf := rfl
@[simp] theorem State.complete_bits (s : State) (c : Code) : (s.complete c).bits = s.bits := rfl
@[simp] theorem State.complete_pending (s : State) (c : Code) : (s.complete c).pending = none := rfl
@[simp] theorem State.complete_resets (s : State) (c : Code) : (s.complete c).resets = s.resets := rfl
@[simp] theorem State.complete_draws (s : State) (c : Code) : (s.complete c).draws = s.draws := rfl
@[simp] theorem State.complete_inbox (s : State) (c : Code) : (s.complete c).inbox = s.inbox := rfl
@[simp] theorem State.complete_schedule (s : State) (c : Code) : (s.complete c).schedule = s.schedule := rfl
@[simp] theorem State.complete_readData (s : State) (c : Code) : (s.complete c).readData = s.readData := rfl

@[simp] theorem State.setResult_params (s : State) (v : Word) : (s.setResult v).params = s.params := rfl
@[simp] theorem State.setResult_arg0 (s : State) (v : Word) : (s.setResult v).arg0 = s.arg0 := rfl
@[simp] theorem State.setResult_arg1 (s : State) (v : Word) : (s.setResult v).arg1 = s.arg1 := rfl
@[simp] theorem State.setResult_arg2 (s : State) (v : Word) : (s.setResult v).arg2 = s.arg2 := rfl
@[simp] theorem State.setResult_arg3 (s : State) (v : Word) : (s.setResult v).arg3 = s.arg3 := rfl
@[simp] theorem State.setResult_keyLen (s : State) (v : Word) : (s.setResult v).keyLen = s.keyLen := rfl
@[simp] theorem State.setResult_result (s : State) (v : Word) : (s.setResult v).result = v := rfl
@[simp] theorem State.setResult_numBits (s : State) (v : Word) : (s.setResult v).numBits = s.numBits := rfl
@[simp] theorem State.setResult_numHash (s : State) (v : Word) : (s.setResult v).numHash = s.numHash := rfl
@[simp] theorem State.setResult_fast (s : State) (v : Word) : (s.setResult v).fast = s.fast := rfl
@[simp] theorem State.setResult_valid (s : State) (v : Word) : (s.setResult v).valid = s.valid := rfl
@[simp] theorem State.setResult_err (s : State) (v : Word) : (s.setResult v).err = s.err := rfl
@[simp] theorem State.setResult_keybuf (s : State) (v : Word) : (s.setResult v).keybuf = s.keybuf := rfl
@[simp] theorem State.setResult_bits (s : State) (v : Word) : (s.setResult v).bits = s.bits := rfl
@[simp] theorem State.setResult_pending (s : State) (v : Word) : (s.setResult v).pending = s.pending := rfl
@[simp] theorem State.setResult_resets (s : State) (v : Word) : (s.setResult v).resets = s.resets := rfl
@[simp] theorem State.setResult_draws (s : State) (v : Word) : (s.setResult v).draws = s.draws := rfl
@[simp] theorem State.setResult_inbox (s : State) (v : Word) : (s.setResult v).inbox = s.inbox := rfl
@[simp] theorem State.setResult_schedule (s : State) (v : Word) : (s.setResult v).schedule = s.schedule := rfl
@[simp] theorem State.setResult_readData (s : State) (v : Word) : (s.setResult v).readData = s.readData := rfl

@[simp] theorem State.setBits_params (s : State) (m : List (Nat × Word)) : (s.setBits m).params = s.params := rfl
@[simp] theorem State.setBits_arg0 (s : State) (m : List (Nat × Word)) : (s.setBits m).arg0 = s.arg0 := rfl
@[simp] theorem State.setBits_arg1 (s : State) (m : List (Nat × Word)) : (s.setBits m).arg1 = s.arg1 := rfl
@[simp] theorem State.setBits_arg2 (s : State) (m : List (Nat × Word)) : (s.setBits m).arg2 = s.arg2 := rfl
@[simp] theorem State.setBits_arg3 (s : State) (m : List (Nat × Word)) : (s.setBits m).arg3 = s.arg3 := rfl
@[simp] theorem State.setBits_keyLen (s : State) (m : List (Nat × Word)) : (s.setBits m).keyLen = s.keyLen := rfl
@[simp] theorem State.setBits_result (s : State) (m : List (Nat × Word)) : (s.setBits m).result = s.result := rfl
@[simp] theorem State.setBits_numBits (s : State) (m : List (Nat × Word)) : (s.setBits m).numBits = s.numBits := rfl
@[simp] theorem State.setBits_numHash (s : State) (m : List (Nat × Word)) : (s.setBits m).numHash = s.numHash := rfl
@[simp] theorem State.setBits_fast (s : State) (m : List (Nat × Word)) : (s.setBits m).fast = s.fast := rfl
@[simp] theorem State.setBits_valid (s : State) (m : List (Nat × Word)) : (s.setBits m).valid = s.valid := rfl
@[simp] theorem State.setBits_err (s : State) (m : List (Nat × Word)) : (s.setBits m).err = s.err := rfl
@[simp] theorem State.setBits_keybuf (s : State) (m : List (Nat × Word)) : (s.setBits m).keybuf = s.keybuf := rfl
@[simp] theorem State.setBits_bits (s : State) (m : List (Nat × Word)) : (s.setBits m).bits = m := rfl
@[simp] theorem State.setBits_pending (s : State) (m : List (Nat × Word)) : (s.setBits m).pending = s.pending := rfl
@[simp] theorem State.setBits_resets (s : State) (m : List (Nat × Word)) : (s.setBits m).resets = s.resets := rfl
@[simp] theorem State.setBits_draws (s : State) (m : List (Nat × Word)) : (s.setBits m).draws = s.draws := rfl
@[simp] theorem State.setBits_inbox (s : State) (m : List (Nat × Word)) : (s.setBits m).inbox = s.inbox := rfl
@[simp] theorem State.setBits_schedule (s : State) (m : List (Nat × Word)) : (s.setBits m).schedule = s.schedule := rfl
@[simp] theorem State.setBits_readData (s : State) (m : List (Nat × Word)) : (s.setBits m).readData = s.readData := rfl

@[simp] theorem State.construct_params (s : State) (m k : Int) (f : Bool) : (s.construct m k f).params = s.params := rfl
@[simp] theorem State.construct_arg0 (s : State) (m k : Int) (f : Bool) : (s.construct m k f).arg0 = s.arg0 := rfl
@[simp] theorem State.construct_arg1 (s : State) (m k : Int) (f : Bool) : (s.construct m k f).arg1 = s.arg1 := rfl
@[simp] theorem State.construct_arg2 (s : State) (m k : Int) (f : Bool) : (s.construct m k f).arg2 = s.arg2 := rfl
@[simp] theorem State.construct_arg3 (s : State) (m k : Int) (f : Bool) : (s.construct m k f).arg3 = s.arg3 := rfl
@[simp] theorem State.construct_keyLen (s : State) (m k : Int) (f : Bool) : (s.construct m k f).keyLen = s.keyLen := rfl
@[simp] theorem State.construct_result (s : State) (m k : Int) (f : Bool) : (s.construct m k f).result = s.result := rfl
@[simp] theorem State.construct_numBits (s : State) (m k : Int) (f : Bool) : (s.construct m k f).numBits = BitVec.ofInt 32 m := rfl
@[simp] theorem State.construct_numHash (s : State) (m k : Int) (f : Bool) : (s.construct m k f).numHash = BitVec.ofInt 32 k := rfl
@[simp] theorem State.construct_fast (s : State) (m k : Int) (f : Bool) : (s.construct m k f).fast = f := rfl
@[simp] theorem State.construct_valid (s : State) (m k : Int) (f : Bool) : (s.construct m k f).valid = true := rfl
@[simp] theorem State.construct_err (s : State) (m k : Int) (f : Bool) : (s.construct m k f).err = s.err := rfl
@[simp] theorem State.construct_keybuf (s : State) (m k : Int) (f : Bool) : (s.construct m k f).keybuf = s.keybuf := rfl
@[simp] theorem State.construct_bits (s : State) (m k : Int) (f : Bool) : (s.construct m k f).bits = [] := rfl
@[simp] theorem State.construct_pending (s : State) (m k : Int) (f : Bool) : (s.construct m k f).pending = s.pending := rfl
@[simp] theorem State.construct_resets (s : State) (m k : Int) (f : Bool) : (s.construct m k f).resets = s.resets := rfl
@[simp] theorem State.construct_draws (s : State) (m k : Int) (f : Bool) : (s.construct m k f).draws = s.draws := rfl
@[simp] theorem State.construct_inbox (s : State) (m k : Int) (f : Bool) : (s.construct m k f).inbox = s.inbox := rfl
@[simp] theorem State.construct_schedule (s : State) (m k : Int) (f : Bool) : (s.construct m k f).schedule = s.schedule := rfl
@[simp] theorem State.construct_readData (s : State) (m k : Int) (f : Bool) : (s.construct m k f).readData = s.readData := rfl

@[simp] theorem State.setKeyByte_params (s : State) (i : Nat) (b : Byte) : (s.setKeyByte i b).params = s.params := rfl
@[simp] theorem State.setKeyByte_arg0 (s : State) (i : Nat) (b : Byte) : (s.setKeyByte i b).arg0 = s.arg0 := rfl
@[simp] theorem State.setKeyByte_arg1 (s : State) (i : Nat) (b : Byte) : (s.setKeyByte i b).arg1 = s.arg1 := rfl
@[simp] theorem State.setKeyByte_arg2 (s : State) (i : Nat) (b : Byte) : (s.setKeyByte i b).arg2 = s.arg2 := rfl
@[simp] theorem State.setKeyByte_arg3 (s : State) (i : Nat) (b : Byte) : (s.setKeyByte i b).arg3 = s.arg3 := rfl
@[simp] theorem State.setKeyByte_keyLen (s : State) (i : Nat) (b : Byte) : (s.setKeyByte i b).keyLen = s.keyLen := rfl
@[simp] theorem State.setKeyByte_result (s : State) (i : Nat) (b : Byte) : (s.setKeyByte i b).result = s.result := rfl
@[simp] theorem State.setKeyByte_numBits (s : State) (i : Nat) (b : Byte) : (s.setKeyByte i b).numBits = s.numBits := rfl
@[simp] theorem State.setKeyByte_numHash (s : State) (i : Nat) (b : Byte) : (s.setKeyByte i b).numHash = s.numHash := rfl
@[simp] theorem State.setKeyByte_fast (s : State) (i : Nat) (b : Byte) : (s.setKeyByte i b).fast = s.fast := rfl
@[simp] theorem State.setKeyByte_valid (s : State) (i : Nat) (b : Byte) : (s.setKeyByte i b).valid = s.valid := rfl
@[simp] theorem State.setKeyByte_err (s : State) (i : Nat) (b : Byte) : (s.setKeyByte i b).err = s.err := rfl
@[simp] theorem State.setKeyByte_keybuf (s : State) (i : Nat) (b : Byte) : (s.setKeyByte i b).keybuf = Memory.write unlistedKey s.keybuf i b := rfl
@[simp] theorem State.setKeyByte_bits (s : State) (i : Nat) (b : Byte) : (s.setKeyByte i b).bits = s.bits := rfl
@[simp] theorem State.setKeyByte_pending (s : State) (i : Nat) (b : Byte) : (s.setKeyByte i b).pending = s.pending := rfl
@[simp] theorem State.setKeyByte_resets (s : State) (i : Nat) (b : Byte) : (s.setKeyByte i b).resets = s.resets := rfl
@[simp] theorem State.setKeyByte_draws (s : State) (i : Nat) (b : Byte) : (s.setKeyByte i b).draws = s.draws := rfl
@[simp] theorem State.setKeyByte_inbox (s : State) (i : Nat) (b : Byte) : (s.setKeyByte i b).inbox = s.inbox := rfl
@[simp] theorem State.setKeyByte_schedule (s : State) (i : Nat) (b : Byte) : (s.setKeyByte i b).schedule = s.schedule := rfl
@[simp] theorem State.setKeyByte_readData (s : State) (i : Nat) (b : Byte) : (s.setKeyByte i b).readData = s.readData := rfl

@[simp] theorem State.setInbox_params (s : State) (es : List HostEvent) : (s.setInbox es).params = s.params := rfl
@[simp] theorem State.setInbox_arg0 (s : State) (es : List HostEvent) : (s.setInbox es).arg0 = s.arg0 := rfl
@[simp] theorem State.setInbox_arg1 (s : State) (es : List HostEvent) : (s.setInbox es).arg1 = s.arg1 := rfl
@[simp] theorem State.setInbox_arg2 (s : State) (es : List HostEvent) : (s.setInbox es).arg2 = s.arg2 := rfl
@[simp] theorem State.setInbox_arg3 (s : State) (es : List HostEvent) : (s.setInbox es).arg3 = s.arg3 := rfl
@[simp] theorem State.setInbox_keyLen (s : State) (es : List HostEvent) : (s.setInbox es).keyLen = s.keyLen := rfl
@[simp] theorem State.setInbox_result (s : State) (es : List HostEvent) : (s.setInbox es).result = s.result := rfl
@[simp] theorem State.setInbox_numBits (s : State) (es : List HostEvent) : (s.setInbox es).numBits = s.numBits := rfl
@[simp] theorem State.setInbox_numHash (s : State) (es : List HostEvent) : (s.setInbox es).numHash = s.numHash := rfl
@[simp] theorem State.setInbox_fast (s : State) (es : List HostEvent) : (s.setInbox es).fast = s.fast := rfl
@[simp] theorem State.setInbox_valid (s : State) (es : List HostEvent) : (s.setInbox es).valid = s.valid := rfl
@[simp] theorem State.setInbox_err (s : State) (es : List HostEvent) : (s.setInbox es).err = s.err := rfl
@[simp] theorem State.setInbox_keybuf (s : State) (es : List HostEvent) : (s.setInbox es).keybuf = s.keybuf := rfl
@[simp] theorem State.setInbox_bits (s : State) (es : List HostEvent) : (s.setInbox es).bits = s.bits := rfl
@[simp] theorem State.setInbox_pending (s : State) (es : List HostEvent) : (s.setInbox es).pending = s.pending := rfl
@[simp] theorem State.setInbox_resets (s : State) (es : List HostEvent) : (s.setInbox es).resets = s.resets := rfl
@[simp] theorem State.setInbox_draws (s : State) (es : List HostEvent) : (s.setInbox es).draws = s.draws := rfl
@[simp] theorem State.setInbox_inbox (s : State) (es : List HostEvent) : (s.setInbox es).inbox = es := rfl
@[simp] theorem State.setInbox_schedule (s : State) (es : List HostEvent) : (s.setInbox es).schedule = s.schedule := rfl
@[simp] theorem State.setInbox_readData (s : State) (es : List HostEvent) : (s.setInbox es).readData = s.readData := rfl

@[simp] theorem State.setReadData_params (s : State) (v : Word) : (s.setReadData v).params = s.params := rfl
@[simp] theorem State.setReadData_arg0 (s : State) (v : Word) : (s.setReadData v).arg0 = s.arg0 := rfl
@[simp] theorem State.setReadData_arg1 (s : State) (v : Word) : (s.setReadData v).arg1 = s.arg1 := rfl
@[simp] theorem State.setReadData_arg2 (s : State) (v : Word) : (s.setReadData v).arg2 = s.arg2 := rfl
@[simp] theorem State.setReadData_arg3 (s : State) (v : Word) : (s.setReadData v).arg3 = s.arg3 := rfl
@[simp] theorem State.setReadData_keyLen (s : State) (v : Word) : (s.setReadData v).keyLen = s.keyLen := rfl
@[simp] theorem State.setReadData_result (s : State) (v : Word) : (s.setReadData v).result = s.result := rfl
@[simp] theorem State.setReadData_numBits (s : State) (v : Word) : (s.setReadData v).numBits = s.numBits := rfl
@[simp] theorem State.setReadData_numHash (s : State) (v : Word) : (s.setReadData v).numHash = s.numHash := rfl
@[simp] theorem State.setReadData_fast (s : State) (v : Word) : (s.setReadData v).fast = s.fast := rfl
@[simp] theorem State.setReadData_valid (s : State) (v : Word) : (s.setReadData v).valid = s.valid := rfl
@[simp] theorem State.setReadData_err (s : State) (v : Word) : (s.setReadData v).err = s.err := rfl
@[simp] theorem State.setReadData_keybuf (s : State) (v : Word) : (s.setReadData v).keybuf = s.keybuf := rfl
@[simp] theorem State.setReadData_bits (s : State) (v : Word) : (s.setReadData v).bits = s.bits := rfl
@[simp] theorem State.setReadData_pending (s : State) (v : Word) : (s.setReadData v).pending = s.pending := rfl
@[simp] theorem State.setReadData_resets (s : State) (v : Word) : (s.setReadData v).resets = s.resets := rfl
@[simp] theorem State.setReadData_draws (s : State) (v : Word) : (s.setReadData v).draws = s.draws := rfl
@[simp] theorem State.setReadData_inbox (s : State) (v : Word) : (s.setReadData v).inbox = s.inbox := rfl
@[simp] theorem State.setReadData_schedule (s : State) (v : Word) : (s.setReadData v).schedule = s.schedule := rfl
@[simp] theorem State.setReadData_readData (s : State) (v : Word) : (s.setReadData v).readData = v := rfl

@[simp] theorem State.readUnspecified_params (s : State) : (s.readUnspecified).params = s.params := rfl
@[simp] theorem State.readUnspecified_arg0 (s : State) : (s.readUnspecified).arg0 = s.arg0 := rfl
@[simp] theorem State.readUnspecified_arg1 (s : State) : (s.readUnspecified).arg1 = s.arg1 := rfl
@[simp] theorem State.readUnspecified_arg2 (s : State) : (s.readUnspecified).arg2 = s.arg2 := rfl
@[simp] theorem State.readUnspecified_arg3 (s : State) : (s.readUnspecified).arg3 = s.arg3 := rfl
@[simp] theorem State.readUnspecified_keyLen (s : State) : (s.readUnspecified).keyLen = s.keyLen := rfl
@[simp] theorem State.readUnspecified_result (s : State) : (s.readUnspecified).result = s.result := rfl
@[simp] theorem State.readUnspecified_numBits (s : State) : (s.readUnspecified).numBits = s.numBits := rfl
@[simp] theorem State.readUnspecified_numHash (s : State) : (s.readUnspecified).numHash = s.numHash := rfl
@[simp] theorem State.readUnspecified_fast (s : State) : (s.readUnspecified).fast = s.fast := rfl
@[simp] theorem State.readUnspecified_valid (s : State) : (s.readUnspecified).valid = s.valid := rfl
@[simp] theorem State.readUnspecified_err (s : State) : (s.readUnspecified).err = s.err := rfl
@[simp] theorem State.readUnspecified_keybuf (s : State) : (s.readUnspecified).keybuf = s.keybuf := rfl
@[simp] theorem State.readUnspecified_bits (s : State) : (s.readUnspecified).bits = s.bits := rfl
@[simp] theorem State.readUnspecified_pending (s : State) : (s.readUnspecified).pending = s.pending := rfl
@[simp] theorem State.readUnspecified_resets (s : State) : (s.readUnspecified).resets = s.resets := rfl
@[simp] theorem State.readUnspecified_draws (s : State) : (s.readUnspecified).draws = s.draws + 1 := rfl
@[simp] theorem State.readUnspecified_inbox (s : State) : (s.readUnspecified).inbox = s.inbox := rfl
@[simp] theorem State.readUnspecified_schedule (s : State) : (s.readUnspecified).schedule = s.schedule := rfl
@[simp] theorem State.readUnspecified_readData (s : State) : (s.readUnspecified).readData = Config.busyRead s.draws := rfl

@[simp] theorem State.passTurn_params (s : State) : (s.passTurn).params = s.params := rfl
@[simp] theorem State.passTurn_arg0 (s : State) : (s.passTurn).arg0 = s.arg0 := rfl
@[simp] theorem State.passTurn_arg1 (s : State) : (s.passTurn).arg1 = s.arg1 := rfl
@[simp] theorem State.passTurn_arg2 (s : State) : (s.passTurn).arg2 = s.arg2 := rfl
@[simp] theorem State.passTurn_arg3 (s : State) : (s.passTurn).arg3 = s.arg3 := rfl
@[simp] theorem State.passTurn_keyLen (s : State) : (s.passTurn).keyLen = s.keyLen := rfl
@[simp] theorem State.passTurn_result (s : State) : (s.passTurn).result = s.result := rfl
@[simp] theorem State.passTurn_numBits (s : State) : (s.passTurn).numBits = s.numBits := rfl
@[simp] theorem State.passTurn_numHash (s : State) : (s.passTurn).numHash = s.numHash := rfl
@[simp] theorem State.passTurn_fast (s : State) : (s.passTurn).fast = s.fast := rfl
@[simp] theorem State.passTurn_valid (s : State) : (s.passTurn).valid = s.valid := rfl
@[simp] theorem State.passTurn_err (s : State) : (s.passTurn).err = s.err := rfl
@[simp] theorem State.passTurn_keybuf (s : State) : (s.passTurn).keybuf = s.keybuf := rfl
@[simp] theorem State.passTurn_bits (s : State) : (s.passTurn).bits = s.bits := rfl
@[simp] theorem State.passTurn_pending (s : State) : (s.passTurn).pending = s.pending := rfl
@[simp] theorem State.passTurn_resets (s : State) : (s.passTurn).resets = s.resets := rfl
@[simp] theorem State.passTurn_draws (s : State) : (s.passTurn).draws = s.draws := rfl
@[simp] theorem State.passTurn_inbox (s : State) : (s.passTurn).inbox = s.inbox := rfl
@[simp] theorem State.passTurn_schedule (s : State) : (s.passTurn).schedule = s.schedule.tail := rfl
@[simp] theorem State.passTurn_readData (s : State) : (s.passTurn).readData = s.readData := rfl

@[simp] theorem State.withPending_params (s : State) (w : Word) : (s.withPending w).params = s.params := rfl
@[simp] theorem State.withPending_arg0 (s : State) (w : Word) : (s.withPending w).arg0 = s.arg0 := rfl
@[simp] theorem State.withPending_arg1 (s : State) (w : Word) : (s.withPending w).arg1 = s.arg1 := rfl
@[simp] theorem State.withPending_arg2 (s : State) (w : Word) : (s.withPending w).arg2 = s.arg2 := rfl
@[simp] theorem State.withPending_arg3 (s : State) (w : Word) : (s.withPending w).arg3 = s.arg3 := rfl
@[simp] theorem State.withPending_keyLen (s : State) (w : Word) : (s.withPending w).keyLen = s.keyLen := rfl
@[simp] theorem State.withPending_result (s : State) (w : Word) : (s.withPending w).result = s.result := rfl
@[simp] theorem State.withPending_numBits (s : State) (w : Word) : (s.withPending w).numBits = s.numBits := rfl
@[simp] theorem State.withPending_numHash (s : State) (w : Word) : (s.withPending w).numHash = s.numHash := rfl
@[simp] theorem State.withPending_fast (s : State) (w : Word) : (s.withPending w).fast = s.fast := rfl
@[simp] theorem State.withPending_valid (s : State) (w : Word) : (s.withPending w).valid = s.valid := rfl
@[simp] theorem State.withPending_err (s : State) (w : Word) : (s.withPending w).err = s.err := rfl
@[simp] theorem State.withPending_keybuf (s : State) (w : Word) : (s.withPending w).keybuf = s.keybuf := rfl
@[simp] theorem State.withPending_bits (s : State) (w : Word) : (s.withPending w).bits = s.bits := rfl
@[simp] theorem State.withPending_pending (s : State) (w : Word) : (s.withPending w).pending = some w := rfl
@[simp] theorem State.withPending_resets (s : State) (w : Word) : (s.withPending w).resets = s.resets := rfl
@[simp] theorem State.withPending_draws (s : State) (w : Word) : (s.withPending w).draws = s.draws := rfl
@[simp] theorem State.withPending_inbox (s : State) (w : Word) : (s.withPending w).inbox = s.inbox := rfl
@[simp] theorem State.withPending_schedule (s : State) (w : Word) : (s.withPending w).schedule = [] := rfl
@[simp] theorem State.withPending_readData (s : State) (w : Word) : (s.withPending w).readData = s.readData := rfl

@[simp] theorem State.resetBlock_params (s : State) : (s.resetBlock).params = s.params := rfl
@[simp] theorem State.resetBlock_arg0 (s : State) : (s.resetBlock).arg0 = 0 := rfl
@[simp] theorem State.resetBlock_arg1 (s : State) : (s.resetBlock).arg1 = 0 := rfl
@[simp] theorem State.resetBlock_arg2 (s : State) : (s.resetBlock).arg2 = 0 := rfl
@[simp] theorem State.resetBlock_arg3 (s : State) : (s.resetBlock).arg3 = 0 := rfl
@[simp] theorem State.resetBlock_keyLen (s : State) : (s.resetBlock).keyLen = 0 := rfl
@[simp] theorem State.resetBlock_result (s : State) : (s.resetBlock).result = 0 := rfl
@[simp] theorem State.resetBlock_numBits (s : State) : (s.resetBlock).numBits = 0 := rfl
@[simp] theorem State.resetBlock_numHash (s : State) : (s.resetBlock).numHash = 0 := rfl
@[simp] theorem State.resetBlock_fast (s : State) : (s.resetBlock).fast = false := rfl
@[simp] theorem State.resetBlock_valid (s : State) : (s.resetBlock).valid = false := rfl
@[simp] theorem State.resetBlock_err (s : State) : (s.resetBlock).err = .ok := rfl
@[simp] theorem State.resetBlock_keybuf (s : State) : (s.resetBlock).keybuf = [] := rfl
@[simp] theorem State.resetBlock_bits (s : State) : (s.resetBlock).bits = [] := rfl
@[simp] theorem State.resetBlock_pending (s : State) : (s.resetBlock).pending = none := rfl
@[simp] theorem State.resetBlock_resets (s : State) : (s.resetBlock).resets = s.resets + 1 := rfl
@[simp] theorem State.resetBlock_draws (s : State) : (s.resetBlock).draws = s.draws := rfl
@[simp] theorem State.resetBlock_inbox (s : State) : (s.resetBlock).inbox = s.inbox := rfl
@[simp] theorem State.resetBlock_schedule (s : State) : (s.resetBlock).schedule = s.schedule := rfl
@[simp] theorem State.resetBlock_readData (s : State) : (s.resetBlock).readData = s.readData := rfl

@[simp] theorem State.complete_busy (s : State) (c : Code) : (s.complete c).busy = false := rfl
@[simp] theorem State.withPending_busy (s : State) (w : Word) : (s.withPending w).busy = true := rfl

end Sys2Proof.Machine
end

