-- ==== Sys2Proof/Laws/Exec.lean ====
section
/-! SUPPORT. One inversion lemma per shared operation and per meaning: everything a next state of it can be. -/

namespace Sys2Proof.Machine

theorem raise_next {c : Code} {s t : State} : raise c s = .next t ↔ t = s.complete c := by
  simp [raise, eq_comm]

theorem done_next {s t : State} : done s = .next t ↔ t = s.complete .ok := by
  simp [done, eq_comm]

/-! What the two ends of a command leave, as records; generic in the value written, so that no proof unfolds the arithmetic that
computes it (a proof by rfl over a computed value would unfold it down to numerals). -/

theorem raise_eq (c : Code) (s : State) : raise c s = .next { s with err := c, pending := none } := rfl

theorem done_eq (s : State) : done s = .next { s with err := .ok, pending := none } := rfl

theorem done_setResult_eq (s : State) (v : Word) :
    done (s.setResult v) = .next { s with result := v, err := .ok, pending := none } := rfl

theorem done_setBits_eq (s : State) (m : List (Nat × Word)) (v : Word) :
    done ((s.setBits m).setResult v) = .next { s with bits := m, result := v, err := .ok, pending := none } := rfl

theorem done_construct_eq (s : State) (m k : Int) (f : Bool) :
    done (s.construct m k f) =
      .next { s with
        bits := [], numBits := BitVec.ofInt 32 m, numHash := BitVec.ofInt 32 k, fast := f, valid := true
        err := .ok, pending := none } := rfl

/-- A result written and the command completed leave every other field (R21, R80), whatever the value. -/
theorem State.setResult_complete_frame (s : State) (v : Word) (c : Code) :
    (s.setResult v).complete c =
      { s with result := ((s.setResult v).complete c).result, err := ((s.setResult v).complete c).err, pending := none } := rfl

/-- The same with the bits written (R166). -/
theorem State.setBits_setResult_complete_frame (s : State) (m : List (Nat × Word)) (v : Word) (c : Code) :
    ((s.setBits m).setResult v).complete c =
      { s with
        bits := (((s.setBits m).setResult v).complete c).bits, result := (((s.setBits m).setResult v).complete c).result
        err := (((s.setBits m).setResult v).complete c).err, pending := none } := rfl

/-! The arms of `exec`. -/

theorem exec_hash (s : State) : exec .hash s = execHash s := rfl
theorem exec_fmix (s : State) : exec .fmix s = execFmix s := rfl
theorem exec_create (f : Bool) (s : State) : exec (.create f) s = execCreate f s := rfl
theorem exec_createCap (f : Bool) (s : State) : exec (.createCap f) s = execCreateCap f s := rfl
theorem exec_insert (s : State) : exec .insert s = execInsert s := rfl
theorem exec_query (s : State) : exec .query s = execQuery s := rfl

/-- `HASH` (R120). -/
theorem execHash_cases {s t : State} (h : execHash s = .next t) :
    (s.keyTooLong = true ∧ t = s.complete .keyTooLong) ∨
    (s.keyTooLong = false ∧ t = (s.setResult (murmur3 s.key)).complete .ok) := by
  unfold execHash at h
  split at h
  · next hk => exact .inl ⟨hk, raise_next.mp h⟩
  · next hk => exact .inr ⟨by simpa using hk, done_next.mp h⟩

/-- `FMIX` (R121). -/
theorem execFmix_cases {s t : State} (h : execFmix s = .next t) :
    t = (s.setResult (finalizeMix s.arg0 s.arg1)).complete .ok := done_next.mp h

/-- `CREATE` (R140). -/
theorem execCreate_cases {f : Bool} {s t : State} (h : execCreate f s = .next t) :
    ((s.sizeOperand ≤ 0 ∨ s.hashCountOperand ≤ 0) ∧ t = s.complete .invalidArgument) ∨
    (0 < s.sizeOperand ∧ 0 < s.hashCountOperand ∧ (s.params.mMax : Int) < s.sizeOperand ∧ t = s.complete .capacityExceeded) ∨
    (0 < s.sizeOperand ∧ 0 < s.hashCountOperand ∧ s.sizeOperand ≤ s.params.mMax ∧
      t = (s.construct s.sizeOperand s.hashCountOperand f).complete .ok) := by
  unfold execCreate at h
  simp only at h
  split at h
  · next hk => exact .inl ⟨hk, raise_next.mp h⟩
  · next hk =>
    split at h
    · next hm => exact .inr (.inl ⟨by omega, by omega, hm, raise_next.mp h⟩)
    · next hm => exact .inr (.inr ⟨by omega, by omega, by omega, done_next.mp h⟩)

/-- `CREATE_CAP` (R144), with `(m, k) = SIZING(n, P)`. -/
theorem execCreateCap_cases {f : Bool} {s t : State} (h : execCreateCap f s = .next t) :
    ((s.sizeOperand ≤ 0 ∨ inOpenUnit s.probabilityOperand = false) ∧ t = s.complete .invalidArgument) ∨
    (0 < s.sizeOperand ∧ inOpenUnit s.probabilityOperand = true ∧
      ∃ m k, Params.sizingOf s.params s.sizeOperand s.probabilityOperand = (m, k) ∧
        (((m ≤ 0 ∨ k ≤ 0) ∧ t = s.complete .invalidArgument) ∨
         (0 < m ∧ 0 < k ∧ ((s.params.mMax : Int) < m ∨ kMax < k) ∧ t = s.complete .capacityExceeded) ∨
         (0 < m ∧ 0 < k ∧ m ≤ s.params.mMax ∧ k ≤ kMax ∧ t = (s.construct m k f).complete .ok))) := by
  unfold execCreateCap at h
  dsimp only at h
  split at h
  · next hn => exact .inl ⟨.inl hn, raise_next.mp h⟩
  · next hn =>
    split at h
    · next hp => exact .inl ⟨.inr hp, raise_next.mp h⟩
    · next hp =>
      refine .inr ⟨by omega, by simpa using hp, ?_⟩
      generalize Params.sizingOf s.params s.sizeOperand s.probabilityOperand = mk at h ⊢
      refine ⟨mk.1, mk.2, rfl, ?_⟩
      split at h
      · next hmk => exact .inl ⟨hmk, raise_next.mp h⟩
      · next hmk =>
        split at h
        · next hc => exact .inr (.inl ⟨by omega, by omega, hc, raise_next.mp h⟩)
        · next hc => exact .inr (.inr ⟨by omega, by omega, by omega, by omega, done_next.mp h⟩)

/-- `INSERT` (R166). -/
theorem execInsert_cases {s t : State} (h : execInsert s = .next t) :
    (s.valid = false ∧ t = s.complete .noFilter) ∨
    (s.valid = true ∧ s.keyTooLong = true ∧ t = s.complete .keyTooLong) ∨
    (s.valid = true ∧ s.keyTooLong = false ∧
      t = ((s.setBits (insertBits s.bits s.positions).1).setResult
        (boolWord (insertBits s.bits s.positions).2)).complete .ok) := by
  unfold execInsert at h
  split at h
  · next hv => exact .inl ⟨hv, raise_next.mp h⟩
  · next hv =>
    split at h
    · next hk => exact .inr (.inl ⟨by simpa using hv, hk, raise_next.mp h⟩)
    · next hk => exact .inr (.inr ⟨by simpa using hv, by simpa using hk, done_next.mp h⟩)

/-- `QUERY` (R168). -/
theorem execQuery_cases {s t : State} (h : execQuery s = .next t) :
    (s.valid = false ∧ t = s.complete .noFilter) ∨
    (s.valid = true ∧ s.keyTooLong = true ∧ t = s.complete .keyTooLong) ∨
    (s.valid = true ∧ s.keyTooLong = false ∧
      t = (s.setResult (boolWord (allSet s.bits s.positions))).complete .ok) := by
  unfold execQuery at h
  split at h
  · next hv => exact .inl ⟨hv, raise_next.mp h⟩
  · next hv =>
    split at h
    · next hk => exact .inr (.inl ⟨by simpa using hv, hk, raise_next.mp h⟩)
    · next hk => exact .inr (.inr ⟨by simpa using hv, by simpa using hk, done_next.mp h⟩)

/-- A pending command (R80, R83): a command's own meaning, or `ILLEGAL_COMMAND`. -/
theorem runCommand_cases {w : Word} {s t : State} (h : runCommand w s = .next t) :
    (∃ i, decode w = .command i ∧ exec i s = .next t) ∨
    (∃ r, decode w = .illegal r ∧ t = s.complete .illegalCommand) := by
  unfold runCommand at h
  split at h
  · next i hi => exact .inl ⟨i, hi, h⟩
  · next r hr => exact .inr ⟨r, hr, raise_next.mp h⟩

/-- A host transaction (R50 to R52, R228). -/
theorem hostRead_cases {off : Nat} {s t : State} (h : hostRead off s = .next t) :
    ∃ pl, placeOf s.params off = .ok pl ∧ t = s.readAny pl := by
  unfold hostRead at h
  split at h
  · cases h
  · next pl hp => exact ⟨pl, hp, (Host.Outcome.next.inj h).symm⟩

theorem hostWrite_cases {off : Nat} {v : Word} {s t : State} (h : hostWrite off v s = .next t) :
    ∃ pl, placeOf s.params off = .ok pl ∧ t = if s.busy then s else s.writePlace v pl := by
  unfold hostWrite at h
  split at h
  · cases h
  · next pl hp => exact ⟨pl, hp, (Host.Outcome.next.inj h).symm⟩

/-- A read changes only what the model keeps of it (R57). -/
theorem State.readAny_frame (s : State) (pl : Place) :
    s.readAny pl = { s with readData := (s.readAny pl).readData, draws := (s.readAny pl).draws } := by
  unfold State.readAny
  split
  · split <;> rfl
  · rfl

/-- Everything a host's turn can do (R50, R93, R203, R220, R228). -/
theorem serveHost_cases {s t : State} (h : serveHost s = .next t) :
    (s.inbox = [] ∧ t = s) ∨
    (∃ off v es pl, s.inbox = .write off v :: es ∧ placeOf s.params off = .ok pl ∧
      t = if s.busy then s.setInbox es else (s.setInbox es).writePlace v pl) ∨
    (∃ off es pl, s.inbox = .read off :: es ∧ placeOf s.params off = .ok pl ∧ t = (s.setInbox es).readAny pl) ∨
    (∃ es, s.inbox = .wait :: es ∧ t = (if s.busy then s else s.setInbox es).setReadData s.statusWord) ∨
    (∃ es, s.inbox = .reset :: es ∧ t = (s.setInbox es).resetBlock) := by
  unfold serveHost at h
  split at h
  · next hi => exact .inl ⟨hi, (Host.Outcome.next.inj h).symm⟩
  · next off v es hi =>
    obtain ⟨pl, hp, ht⟩ := hostWrite_cases h
    exact .inr (.inl ⟨off, v, es, pl, hi, hp, ht⟩)
  · next off es hi =>
    obtain ⟨pl, hp, ht⟩ := hostRead_cases h
    exact .inr (.inr (.inl ⟨off, es, pl, hi, hp, ht⟩))
  · next es hi => exact .inr (.inr (.inr (.inl ⟨es, hi, (Host.Outcome.next.inj h).symm⟩)))
  · next es hi => exact .inr (.inr (.inr (.inr ⟨es, hi, (Host.Outcome.next.inj h).symm⟩)))

/-- Everything a step can be (R20, R229). -/
theorem step_cases {s t : State} (h : step s = .next t) :
    (s.pending = none ∧ serveHost s = .next t) ∨
    (∃ w, s.pending = some w ∧ s.nextAgent = .block ∧ runCommand w s.passTurn = .next t) ∨
    (∃ w, s.pending = some w ∧ s.nextAgent = .host ∧ serveHost s.passTurn = .next t) := by
  unfold step stepAgents at h
  split at h
  · next hp => exact .inl ⟨hp, h⟩
  · next w hp =>
    split at h
    · next ha => exact .inr (.inl ⟨w, hp, ha, h⟩)
    · next ha => exact .inr (.inr ⟨w, hp, ha, h⟩)

end Sys2Proof.Machine
end

