-- ==== Sys2Proof/Laws/Memory.lean ====
section
/-! SUPPORT. The laws of the sparse memories: a read after a write, that every operation keeps the canonical form, and the lanes of
a word. -/

namespace Sys2Proof.Machine

section Lists
variable {α : Type}

@[simp] theorem Memory.read?_nil (a : Nat) : Memory.read? ([] : List (Nat × α)) a = none := rfl

theorem Memory.read?_cons (b : Nat) (v : α) (m : List (Nat × α)) (a : Nat) :
    Memory.read? ((b, v) :: m) a = if a = b then some v else Memory.read? m a := rfl

@[simp] theorem Memory.read?_put_self (m : List (Nat × α)) (a : Nat) (v : α) :
    Memory.read? (Memory.put a v m) a = some v := by
  induction m with
  | nil => simp [Memory.put, Memory.read?_cons]
  | cons e m ih =>
    obtain ⟨b, w⟩ := e
    simp only [Memory.put]
    split
    · simp [Memory.read?_cons]
    · split
      · simp [Memory.read?_cons]
      · next h => simp [Memory.read?_cons, h, ih]

theorem Memory.read?_put_other (m : List (Nat × α)) (a c : Nat) (v : α) (h : c ≠ a) :
    Memory.read? (Memory.put a v m) c = Memory.read? m c := by
  induction m with
  | nil => simp [Memory.put, Memory.read?_cons, h]
  | cons e m ih =>
    obtain ⟨b, w⟩ := e
    simp only [Memory.put]
    split
    · simp [Memory.read?_cons, h]
    · split
      · next hab => subst hab; simp [Memory.read?_cons, h]
      · simp [Memory.read?_cons, ih]

@[simp] theorem Memory.read?_erase_self (m : List (Nat × α)) (a : Nat) :
    Memory.read? (Memory.erase m a) a = none := by
  induction m with
  | nil => rfl
  | cons e m ih =>
    obtain ⟨b, w⟩ := e
    unfold Memory.erase at ih ⊢
    by_cases h : b = a
    · simp [h, ih]
    · simp [h, Memory.read?_cons, Ne.symm h, ih]

theorem Memory.read?_erase_other (m : List (Nat × α)) (a c : Nat) (h : c ≠ a) :
    Memory.read? (Memory.erase m a) c = Memory.read? m c := by
  induction m with
  | nil => rfl
  | cons e m ih =>
    obtain ⟨b, w⟩ := e
    unfold Memory.erase at ih ⊢
    by_cases hb : b = a
    · subst hb; simp [Memory.read?_cons, h, ih]
    · simp [hb, Memory.read?_cons, ih]

theorem Memory.mem_put (m : List (Nat × α)) (a : Nat) (v : α) (e : Nat × α) (h : e ∈ Memory.put a v m) :
    e = (a, v) ∨ e ∈ m := by
  induction m with
  | nil => simpa [Memory.put] using h
  | cons x m ih =>
    obtain ⟨b, w⟩ := x
    simp only [Memory.put] at h
    split at h
    · simpa using h
    · split at h
      · rcases List.mem_cons.mp h with h | h
        · exact .inl h
        · exact .inr (List.mem_cons_of_mem _ h)
      · rcases List.mem_cons.mp h with h | h
        · exact .inr (h ▸ List.mem_cons_self)
        · exact (ih h).imp_right (List.mem_cons_of_mem _)

/-- What is listed is what is read, in the canonical order. -/
theorem Memory.read?_of_mem {m : List (Nat × α)} (hm : m.Pairwise fun x y => x.1 < y.1) {e : Nat × α} (he : e ∈ m) :
    Memory.read? m e.1 = some e.2 := by
  induction m with
  | nil => simp at he
  | cons x m ih =>
    obtain ⟨b, w⟩ := x
    rw [List.pairwise_cons] at hm
    rcases List.mem_cons.mp he with rfl | he
    · simp [Memory.read?_cons]
    · have := hm.1 e he
      simp only [Memory.read?_cons]
      rw [if_neg (by simp at this; omega)]
      exact ih hm.2 he

theorem Memory.mem_of_read? {m : List (Nat × α)} {a : Nat} {v : α} (h : Memory.read? m a = some v) : (a, v) ∈ m := by
  induction m with
  | nil => simp at h
  | cons x m ih =>
    obtain ⟨b, w⟩ := x
    rw [Memory.read?_cons] at h
    split at h
    · next hab => cases h; simp [hab]
    · exact List.mem_cons_of_mem _ (ih h)

theorem Memory.pairwise_put (m : List (Nat × α)) (a : Nat) (v : α) (hm : m.Pairwise fun x y => x.1 < y.1) :
    (Memory.put a v m).Pairwise fun x y => x.1 < y.1 := by
  induction m with
  | nil => simp [Memory.put]
  | cons x m ih =>
    obtain ⟨b, w⟩ := x
    have hm' := List.pairwise_cons.mp hm
    simp only [Memory.put]
    split
    · next hab =>
      refine List.pairwise_cons.mpr ⟨fun y hy => ?_, hm⟩
      rcases List.mem_cons.mp hy with rfl | hy
      · exact hab
      · exact Nat.lt_trans hab (hm'.1 y hy)
    · split
      · next hab => subst hab; exact List.pairwise_cons.mpr ⟨hm'.1, hm'.2⟩
      · next h1 h2 =>
        refine List.pairwise_cons.mpr ⟨fun y hy => ?_, ih hm'.2⟩
        rcases Memory.mem_put m a v y hy with rfl | hy
        · simp; omega
        · exact hm'.1 y hy

theorem Memory.pairwise_erase (m : List (Nat × α)) (a : Nat) (hm : m.Pairwise fun x y => x.1 < y.1) :
    (Memory.erase m a).Pairwise fun x y => x.1 < y.1 := hm.filter _

variable [DecidableEq α]

/-- A read at the address written. -/
theorem Memory.read?_write_self (u : Option α) (m : List (Nat × α)) (a : Nat) (v : α) :
    Memory.read? (Memory.write u m a v) a = if u = some v then none else some v := by
  unfold Memory.write
  split <;> simp

/-- A read elsewhere. -/
theorem Memory.read?_write_other (u : Option α) (m : List (Nat × α)) (a c : Nat) (v : α) (h : c ≠ a) :
    Memory.read? (Memory.write u m a v) c = Memory.read? m c := by
  unfold Memory.write
  split
  · exact Memory.read?_erase_other m a c h
  · exact Memory.read?_put_other m a c v h

/-- A write keeps the canonical form. -/
theorem Memory.write_wf (u : Option α) (m : List (Nat × α)) (a : Nat) (v : α) (h : Memory.wf u m) :
    Memory.wf u (Memory.write u m a v) := by
  unfold Memory.write
  split
  · exact ⟨Memory.pairwise_erase m a h.1, fun e he => h.2 e (List.mem_of_mem_filter he)⟩
  · next hv =>
    refine ⟨Memory.pairwise_put m a v h.1, fun e he => ?_⟩
    rcases Memory.mem_put m a v e he with rfl | he
    · exact hv
    · exact h.2 e he

/-- What a write lists is the entry written or was listed before. -/
theorem Memory.mem_write (u : Option α) (m : List (Nat × α)) (a : Nat) (v : α) (e : Nat × α)
    (h : e ∈ Memory.write u m a v) : e = (a, v) ∨ e ∈ m := by
  unfold Memory.write at h
  split at h
  · exact .inr (List.mem_of_mem_filter h)
  · exact Memory.mem_put m a v e h

end Lists

theorem Memory.wf_nil_key : Memory.wf unlistedKey ([] : List Host.Cell) := by simp [Memory.wf]
theorem Memory.wf_nil_bits : Memory.wf unlistedBits ([] : List (Nat × Word)) := by simp [Memory.wf]

/-- Every operation of the machine on the bit array keeps the canonical form. -/
theorem setBit_wf (m : List (Nat × Word)) (p : Nat) (h : Memory.wf unlistedBits m) : Memory.wf unlistedBits (setBit m p) :=
  Memory.write_wf _ _ _ _ h

/-- Every operation of the machine on the key buffer keeps the canonical form. -/
theorem State.setKeyByte_wf (s : State) (i : Nat) (b : Byte) (h : Memory.wf unlistedKey s.keybuf) :
    Memory.wf unlistedKey (s.setKeyByte i b).keybuf := Memory.write_wf _ _ _ _ h

theorem State.setKeyWord_wf (s : State) (w : Nat) (v : Word) (h : Memory.wf unlistedKey s.keybuf) :
    Memory.wf unlistedKey (s.setKeyWord w v).keybuf :=
  State.setKeyByte_wf _ _ _ (State.setKeyByte_wf _ _ _ (State.setKeyByte_wf _ _ _ (State.setKeyByte_wf _ _ _ h)))

/-- A byte of the key buffer after a write there. -/
@[simp] theorem State.keyByte_setKeyByte_self (s : State) (i : Nat) (b : Byte) : (s.setKeyByte i b).keyByte i = b := by
  simp [State.keyByte, State.setKeyByte, unlistedKey, Memory.read?_write_self]

/-- A byte of the key buffer after a write elsewhere. -/
theorem State.keyByte_setKeyByte_other (s : State) (i j : Nat) (b : Byte) (h : j ≠ i) :
    (s.setKeyByte i b).keyByte j = s.keyByte j := by
  have := Memory.read?_write_other unlistedKey s.keybuf i j b h
  simp only [State.keyByte, State.setKeyByte, this]

/-- A byte of the key buffer after a word write: the written lane inside the word, the old byte outside. -/
theorem State.keyByte_setKeyWord (s : State) (w : Nat) (v : Word) (j : Nat) :
    (s.setKeyWord w v).keyByte j = if j / 4 = w then laneByte v (j % 4) else s.keyByte j := by
  unfold State.setKeyWord
  split
  · next h =>
    have hj : j = 4 * w ∨ j = 4 * w + 1 ∨ j = 4 * w + 2 ∨ j = 4 * w + 3 := by omega
    rcases hj with rfl | rfl | rfl | rfl
    · have : 4 * w % 4 = 0 := by omega
      rw [this, State.keyByte_setKeyByte_other _ _ _ _ (by omega), State.keyByte_setKeyByte_other _ _ _ _ (by omega),
        State.keyByte_setKeyByte_other _ _ _ _ (by omega), State.keyByte_setKeyByte_self]
    · have : (4 * w + 1) % 4 = 1 := by omega
      rw [this, State.keyByte_setKeyByte_other _ _ _ _ (by omega), State.keyByte_setKeyByte_other _ _ _ _ (by omega),
        State.keyByte_setKeyByte_self]
    · have : (4 * w + 2) % 4 = 2 := by omega
      rw [this, State.keyByte_setKeyByte_other _ _ _ _ (by omega), State.keyByte_setKeyByte_self]
    · have : (4 * w + 3) % 4 = 3 := by omega
      rw [this, State.keyByte_setKeyByte_self]
  · rw [State.keyByte_setKeyByte_other _ _ _ _ (by omega), State.keyByte_setKeyByte_other _ _ _ _ (by omega),
      State.keyByte_setKeyByte_other _ _ _ _ (by omega), State.keyByte_setKeyByte_other _ _ _ _ (by omega)]

/-- The word write changes the key buffer's contents and nothing else. -/
theorem State.setKeyWord_frame (s : State) (w : Nat) (v : Word) :
    s.setKeyWord w v = { s with keybuf := (s.setKeyWord w v).keybuf } := rfl

end Sys2Proof.Machine
end

