-- ==== Sys2Proof/Laws/Filter.lean ====
section
/-! SUPPORT. The laws of the operands, of the filter's loops, of what ends a command, and of the invariant's parts. -/

namespace Sys2Proof.Machine

/-- The length check of a key command (R87, R195). -/
theorem State.keyTooLong_iff (s : State) : s.keyTooLong = true ↔ s.params.keyMax < unsigned s.keyLen := by
  simp [State.keyTooLong]

/-- The accepted patterns of P (R86). -/
theorem inOpenUnit_iff (p : BitVec 64) : inOpenUnit p = true ↔ 1 ≤ p.toNat ∧ p.toNat ≤ 0x3FEFFFFFFFFFFFFF := by
  simp [inOpenUnit]

/-- The length of the key is `KEY_LEN` (R53). -/
theorem State.key_length (s : State) : s.key.length = unsigned s.keyLen := by
  simp [State.key]

/-- The key depends on the bytes below `KEY_LEN` alone (R53). -/
theorem State.key_congr {s : State} {kb : List Host.Cell}
    (h : ∀ j, j < unsigned s.keyLen → State.keyByte { s with keybuf := kb } j = s.keyByte j) :
    State.key { s with keybuf := kb } = s.key := by
  simp only [State.key]
  exact List.map_congr_left fun a ha => h a (by simpa using ha)

/-- The positions are a function of the key and the filter registers (R165). -/
theorem State.positions_congr {s u : State} (hk : u.key = s.key) (hm : u.numBits = s.numBits) (hn : u.numHash = s.numHash)
    (hf : u.fast = s.fast) : u.positions = s.positions := by
  simp only [State.positions, hk, hm, hn, hf]

/-- A constructed bit array holds only 0 (R142). -/
@[simp] theorem bitAt_nil (p : Nat) : bitAt [] p = false := by simp [bitAt, bitsWord]

/-- `QUERY`'s loop answers whether every position holds 1; where it ends makes no difference (R168). -/
theorem allSet_iff (m : List (Nat × Word)) (ps : List Nat) : allSet m ps = true ↔ ∀ p ∈ ps, bitAt m p = true := by
  induction ps with
  | nil => simp [allSet]
  | cons x ps ih => simp only [allSet]; split <;> simp_all

/-- A construction of legal numbers writes them as they are (R142). -/
theorem toNat_ofInt_word {m : Int} (h0 : 0 < m) (h1 : m ≤ 2147483647) : (BitVec.ofInt 32 m).toNat = m.toNat := by
  rw [BitVec.toNat_ofInt]; omega

theorem toInt_ofInt_word {m : Int} (h0 : 0 < m) (h1 : m ≤ 2147483647) : (BitVec.ofInt 32 m).toInt = m := by
  rw [BitVec.toInt_ofInt, Int.bmod_def]; split <;> omega

/-- Everything a command can do, by what it changes: an error, a result, an insertion, a construction. -/
theorem exec_cases {i : Instr} {s t : State} (h : exec i s = .next t) :
    (∃ c, c ≠ .ok ∧ t = s.complete c) ∨
    ((i = .hash ∨ i = .fmix ∨ i = .query) ∧ ∃ v, t = (s.setResult v).complete .ok) ∨
    (i = .insert ∧ s.valid = true ∧ s.keyTooLong = false ∧
      t = ((s.setBits (insertBits s.bits s.positions).1).setResult (boolWord (insertBits s.bits s.positions).2)).complete .ok) ∨
    (∃ (f : Bool) (m k : Int), (i = .create f ∨ i = .createCap f) ∧ 0 < m ∧ 0 < k ∧ m ≤ s.params.mMax ∧ k ≤ kMax ∧
      t = (s.construct m k f).complete .ok) := by
  cases i with
  | hash =>
    rcases execHash_cases h with ⟨_, rfl⟩ | ⟨_, rfl⟩
    · exact .inl ⟨_, by simp, rfl⟩
    · exact .inr (.inl ⟨by simp, _, rfl⟩)
  | fmix => cases execFmix_cases h; exact .inr (.inl ⟨by simp, _, rfl⟩)
  | create f =>
    rcases execCreate_cases h with ⟨_, rfl⟩ | ⟨_, _, _, rfl⟩ | ⟨h1, h2, h3, rfl⟩
    · exact .inl ⟨_, by simp, rfl⟩
    · exact .inl ⟨_, by simp, rfl⟩
    · refine .inr (.inr (.inr ⟨f, _, _, .inl rfl, h1, h2, h3, ?_, rfl⟩))
      have := BitVec.toInt_lt (x := s.arg1)
      simp [State.hashCountOperand, signed, kMax]; omega
  | createCap f =>
    rcases execCreateCap_cases h with ⟨_, rfl⟩ | ⟨_, _, m, k, hk, (⟨_, rfl⟩ | ⟨_, _, _, rfl⟩ | ⟨h1, h2, h3, h4, rfl⟩)⟩
    · exact .inl ⟨_, by simp, rfl⟩
    · exact .inl ⟨_, by simp, rfl⟩
    · exact .inl ⟨_, by simp, rfl⟩
    · exact .inr (.inr (.inr ⟨f, _, _, .inr rfl, h1, h2, h3, h4, rfl⟩))
  | insert =>
    rcases execInsert_cases h with ⟨_, rfl⟩ | ⟨_, _, rfl⟩ | ⟨hv, hk, rfl⟩
    · exact .inl ⟨_, by simp, rfl⟩
    · exact .inl ⟨_, by simp, rfl⟩
    · exact .inr (.inr (.inl ⟨rfl, hv, hk, rfl⟩))
  | query =>
    rcases execQuery_cases h with ⟨_, rfl⟩ | ⟨_, _, rfl⟩ | ⟨_, _, rfl⟩
    · exact .inl ⟨_, by simp, rfl⟩
    · exact .inl ⟨_, by simp, rfl⟩
    · exact .inr (.inl ⟨by simp, _, rfl⟩)

theorem constructs_iff (i : Instr) : Instr.constructs i = true ↔ ∃ f, i = .create f ∨ i = .createCap f := by
  cases i <;> simp [Instr.constructs]

/-- The invariant reads these eight fields alone. -/
theorem State.Inv_congr {s t : State} (hp : t.params = s.params) (hk : t.keybuf = s.keybuf) (hm : t.numBits = s.numBits)
    (hn : t.numHash = s.numHash) (hf : t.fast = s.fast) (hv : t.valid = s.valid) (he : t.err = s.err) (hb : t.bits = s.bits)
    (h : s.Inv) : t.Inv := by
  unfold State.Inv State.keybufLegal State.filterLegal State.bitsLegal at *
  rw [hp, hk, hm, hn, hf, hv, he, hb]; exact h

end Sys2Proof.Machine
end

