-- ==== Sys2Proof/Laws/PerInstr.lean ====
section
/-! SUPPORT. The family TableMatch: every command's word selects the opcode-table row of its mnemonic (R83, R97). -/

namespace Sys2Proof.Laws.TableMatch

/-- The word of a command selects the one row of `opcodeTable` with its mnemonic, and no other row. -/
def Statement (i : Instr) : Prop :=
  (opcodeTable.filter fun r => r.selects (encode i)).map OpcodeRow.mnemonic = [i.mnemonic]

theorem hash : Statement .hash := by unfold Statement; decide
theorem fmix : Statement .fmix := by unfold Statement; decide
theorem create (fast : Bool) : Statement (.create fast) := by unfold Statement; cases fast <;> decide
theorem createCap (fast : Bool) : Statement (.createCap fast) := by unfold Statement; cases fast <;> decide
theorem insert : Statement .insert := by unfold Statement; decide
theorem query : Statement .query := by unfold Statement; decide

end Sys2Proof.Laws.TableMatch
end

