-- ==== Sys2Proof/Laws/Run.lean ====
section
/-! SUPPORT. The laws of the port's address map, of what a host's turn keeps, and of runs of several steps. -/

namespace Sys2Proof.Machine

/-- Every register has its offset (10_state.md section 8). -/
@[simp] theorem placeOf_regOffset (p : Params) (r : RegName) : placeOf p (regOffset r) = .ok (.reg r) := by
  cases r <;> rfl

/-- A register stands at its own offset alone. -/
theorem placeOf_reg {p : Params} {off : Nat} {r : RegName} (h : placeOf p off = .ok (.reg r)) : off = regOffset r := by
  unfold placeOf at h
  split at h
  · cases h
  · split at h
    · simp only [Except.ok.injEq] at h
      revert h; unfold lowPlace
      split <;> simp <;> rintro rfl <;> rfl
    · split at h <;> cases h

/-- A word of the key buffer stands at its offset (R52). -/
theorem placeOf_keyWord {p : Params} {w : Nat} (h : w < p.keyMax / 4) : placeOf p (0x100 + 4 * w) = .ok (.keyWord w) := by
  unfold placeOf
  rw [if_neg (by omega), if_neg (by omega), if_pos (by omega)]
  congr; simp

/-- The host's turn, other than the reset event, keeps the filter, `RESULT` and `STATUS.ERR` (R50, R57, R228). -/
theorem serveHost_frame {s t : State} (h : serveHost s = .next t) (hr : s.inbox.head? ≠ some .reset) :
    t.params = s.params ∧ t.result = s.result ∧ t.numBits = s.numBits ∧ t.numHash = s.numHash ∧ t.fast = s.fast ∧
    t.valid = s.valid ∧ t.err = s.err ∧ t.bits = s.bits := by
  rcases serveHost_cases h with ⟨_, rfl⟩ | ⟨off, v, es, pl, hi, hp, rfl⟩ | ⟨off, es, pl, hi, hp, rfl⟩ | ⟨es, hi, rfl⟩ |
    ⟨es, hi, rfl⟩
  · simp
  · split
    · simp
    · cases pl with
      | reg r => cases r <;> simp [State.writePlace, State.writeReg]
      | reserved => simp [State.writePlace]
      | keyWord w => simp [State.writePlace, State.setKeyWord, State.setKeyByte]
  · rw [State.readAny_frame]; simp
  · split <;> simp
  · simp [hi] at hr

/-- A step, then the rest of the run. -/
theorem run_step {s t : State} (h : step s = .next t) (n : Nat) :
    Host.Core.run Sys2Proof.core (n + 1) s = Host.Core.run Sys2Proof.core n t := by
  have h' : Sys2Proof.core.step s = .next t := h
  simp only [Host.Core.run, h']

/-- Two runs, one after the other. -/
theorem run_add (n m : Nat) (s t : State) (h : Host.Core.run Sys2Proof.core n s = .next t) :
    Host.Core.run Sys2Proof.core (n + m) s = Host.Core.run Sys2Proof.core m t := by
  induction n generalizing s with
  | zero => cases h; rw [Nat.zero_add]
  | succ n ih =>
    rw [show n + 1 + m = (n + m) + 1 by omega]
    cases hs : step s with
    | next s' => rw [run_step hs] at h ⊢; exact ih s' h
    | fault r =>
      have hs' : Sys2Proof.core.step s = .fault r := hs
      simp only [Host.Core.run, hs'] at h; cases h
    | refused r =>
      have hs' : Sys2Proof.core.step s = .refused r := hs
      simp only [Host.Core.run, hs'] at h; cases h

end Sys2Proof.Machine
end

