-- ==== Sys2Proof/Laws/Sizing.lean ====
section
/-! SUPPORT. The laws of the sizing function (R145): that k is rounded as the real ln 2 rounds, and that R145's M is in the range in
which that holds. (That M is R145's is in its type, `ExactM`; that the logarithms' bounds hold is proved in Machine/Logarithm.lean.) -/

namespace Sys2Proof.Machine

/-- The two parts of `SIZING_REF`. -/
theorem sizingRef_fst (n : Int) (p : BitVec 64) :
    (sizingRef n p).1 = ⌈-(n : ℝ) * Real.log (((binary64Value p).getD 0 : ℚ) : ℝ) / Real.log 2 ^ 2⌉ := (sizingM n p).2

theorem sizingRef_snd (n : Int) (p : BitVec 64) : (sizingRef n p).2 = sizingK n (sizingRef n p).1 := rfl

/-- R145's M is at least 1, and below 2^43 for every n that `ARG0` can hold. -/
theorem sizing_ceil_range {n : Int} {p : BitVec 64} {q : ℚ} (hn : 1 ≤ n) (hn' : n ≤ 2147483647) (hp : inOpenUnit p = true)
    (hq : binary64Value p = some q) :
    1 ≤ ⌈-(n : ℝ) * Real.log (q : ℝ) / Real.log 2 ^ 2⌉ ∧ ⌈-(n : ℝ) * Real.log (q : ℝ) / Real.log 2 ^ 2⌉ < 2 ^ 43 := by
  obtain ⟨n1, -, -, n4, n5⟩ := negLnBounds_spec le_rfl hp hq
  have hB : (0 : ℝ) < lnScale 65 := by exact_mod_cast lnScale_pos 65
  have hlo : (0 : ℝ) < (negLnBounds 65 p).1 := by exact_mod_cast n4
  have hnl : 0 < -Real.log (q : ℝ) := pos_of_mul_pos_right (hlo.trans_le n1) hB.le
  have hnR : (0 : ℝ) < n := by exact_mod_cast (by omega : 0 < n)
  have hnU : (n : ℝ) ≤ 2147483647 := by exact_mod_cast hn'
  have hl : (0.48 : ℝ) ≤ Real.log 2 ^ 2 := by have := Real.log_two_gt_d9; nlinarith
  rw [show -(n : ℝ) * Real.log (q : ℝ) = n * -Real.log (q : ℝ) by ring]
  generalize -Real.log (q : ℝ) = nl at *
  constructor
  · rw [Int.one_le_ceil_iff]; exact div_pos (mul_pos hnR hnl) (by linarith)
  · have h : (n : ℝ) * nl / Real.log 2 ^ 2 ≤ ((2 ^ 43 - 1 : ℤ) : ℝ) := by
      rw [div_le_iff₀ (by linarith)]
      have h1 : (n : ℝ) * nl ≤ 2147483647 * 745 := mul_le_mul hnU n5 hnl.le (by norm_num)
      push_cast
      nlinarith
    have := Int.ceil_le.mpr h
    omega

/-- `k` is R145's: ln 2 lies between two fractions between which no fraction has a denominator as small as `2 · M`. -/
theorem sizingK_eq {n m : Int} (hn : 1 ≤ n) (hm : 1 ≤ m) (hm' : m < 2 ^ 43) :
    sizingK n m = max 1 (round ((m : ℝ) / n * Real.log 2)) := by
  obtain ⟨l1, l2⟩ := ln2_bounds sizingBits
  have c1 : lnScale sizingBits * 50847120240416 ≤ lnFixed sizingBits 2 1 * 73356888214333 := by decide +kernel
  have c2 : (lnFixed sizingBits 2 1 + 2) * 16413504057361 ≤ lnScale sizingBits * 11376974060469 := by decide +kernel
  have hB : (0 : ℤ) < (lnScale sizingBits : Int) := by exact_mod_cast lnScale_pos sizingBits
  simp only [sizingK]
  have c1' : (lnScale sizingBits : Int) * 50847120240416 ≤ lnFixed sizingBits 2 1 * 73356888214333 := by exact_mod_cast c1
  have c2' : ((lnFixed sizingBits 2 1 : Int) + 2) * 16413504057361 ≤ (lnScale sizingBits : Int) * 11376974060469 := by exact_mod_cast c2
  clear c1 c2
  generalize lnScale sizingBits = B at *
  generalize lnFixed sizingBits 2 1 = L at *
  have hBR : (0 : ℝ) < B := by exact_mod_cast hB
  have hnR : (0 : ℝ) < n := by exact_mod_cast (by omega : 0 < n)
  have hmR : (0 : ℝ) < m := by exact_mod_cast (by omega : 0 < m)
  have hden : (0 : ℤ) < 2 * n * B := by positivity
  congr 1
  rw [round_eq, int_div_eq_floor _ hden]
  have hy : (m : ℝ) / n * Real.log 2 + 1 / 2 = (2 * m * (B * Real.log 2) + n * B) / (2 * n * B) := by field_simp
  generalize Real.log 2 = ln2 at *
  apply le_antisymm
  · apply Int.floor_le_floor
    rw [hy]; push_cast
    apply div_le_div_of_nonneg_right _ (by positivity)
    have := mul_le_mul_of_nonneg_left l1 (by positivity : (0 : ℝ) ≤ 2 * m)
    linarith
  · by_contra hlt
    rw [not_le] at hlt
    obtain ⟨j, hj⟩ : ∃ j, j = ⌊(m : ℝ) / n * ln2 + 1 / 2⌋ := ⟨_, rfl⟩
    rw [← hj, Int.floor_lt] at hlt
    have hj2 : (j : ℝ) ≤ (m : ℝ) / n * ln2 + 1 / 2 := by rw [hj]; exact Int.floor_le _
    push_cast at hlt
    rw [div_lt_iff₀ (by positivity)] at hlt
    have h1 : 2 * m * (L : ℤ) < (2 * j - 1) * n * B := by
      have : 2 * (m : ℝ) * L < (2 * j - 1) * n * B := by linarith
      exact_mod_cast this
    rw [hy, le_div_iff₀ (by positivity)] at hj2
    have h2 : (2 * j - 1) * n * B < 2 * m * ((L : ℤ) + 2) := by
      have h3 : 2 * (m : ℝ) * (B * ln2) < 2 * m * (L + 2) := mul_lt_mul_of_pos_left (by exact_mod_cast l2) (by positivity)
      have : (2 * (j : ℝ) - 1) * n * B < 2 * m * (L + 2) := by linarith
      exact_mod_cast this
    generalize (2 * j - 1) * n = a at *
    have g1 : 2 * m * 50847120240416 < a * 73356888214333 := by
      have := mul_le_mul_of_nonneg_left c1' (by omega : (0 : ℤ) ≤ 2 * m)
      have : B * (2 * m * 50847120240416) < B * (a * 73356888214333) := by nlinarith
      exact lt_of_mul_lt_mul_left this hB.le
    have g2 : a * 16413504057361 < 2 * m * 11376974060469 := by
      have := mul_le_mul_of_nonneg_left c2' (by omega : (0 : ℤ) ≤ 2 * m)
      have : B * (a * 16413504057361) < B * (2 * m * 11376974060469) := by nlinarith
      exact lt_of_mul_lt_mul_left this hB.le
    omega

end Sys2Proof.Machine
end

