-- ==== Sys2Proof/Tests/Slice0.lean ====
section
/-! SUPPORT. Tests: ill-formed terms that the checks refuse, words written out from R82, results taken from 95_test_vectors.md,
and for every obligation with hypotheses a witness that meets them. -/

namespace Sys2Proof.Tests

open Sys2Proof Sys2Proof.Machine

set_option Elab.async false

/-! ### Helpers -/

/-- The outcome is a next state with this property. -/
def holds (o : Host.Outcome State Fault Refusal) (p : State → Bool) : Bool :=
  match o with
  | .next t => p t
  | .fault _ => false
  | .refused _ => false

/-- The outcome is a refusal of this name. -/
def refusedBy (o : Host.Outcome State Fault Refusal) (r : Refusal) : Bool :=
  match o with
  | .next _ => false
  | .fault _ => false
  | .refused q => q == r

/-- The next state, where there is one. -/
def after (o : Host.Outcome State Fault Refusal) : State :=
  match o with
  | .next t => t
  | .fault _ => State.reset
  | .refused _ => State.reset

theorem next_after {o : Host.Outcome State Fault Refusal} (h : holds o (fun _ => true) = true) : o = .next (after o) := by
  cases o with
  | next t => rfl
  | fault r => cases h
  | refused r => cases h

theorem next_of {o : Host.Outcome State Fault Refusal} {p : State → Bool} (h : holds o p = true) :
    ∃ t, o = .next t ∧ p t = true := by
  cases o with
  | next t => exact ⟨t, rfl, h⟩
  | fault r => cases h
  | refused r => cases h

/-- A state with these bytes in `KEYBUF` and their number in `KEY_LEN`. -/
def withKey (s : State) (bs : List Byte) : State :=
  { s with keybuf := (List.range bs.length).zip bs, keyLen := BitVec.ofNat 32 bs.length }

/-- A state with a filter of these parameters and bits. -/
def withFilter (s : State) (m k : Word) (fast : Bool) (bits : List (Nat × Word)) : State :=
  { s with valid := true, numBits := m, numHash := k, fast := fast, bits := bits }

/-- The operands of the construction commands and of `FMIX`. -/
def withArgs (a0 a1 a2 a3 : Word) : State := { State.reset with arg0 := a0, arg1 := a1, arg2 := a2, arg3 := a3 }

def abc : List Byte := [0x61, 0x62, 0x63]
def abd : List Byte := [0x61, 0x62, 0x64]

/-- Sequence A of 95_test_vectors.md section 2.9: M = 64, k = 3, standard mode; empty, and after `INSERT "abc"`. -/
def seqA (key : List Byte) (bits : List (Nat × Word)) : State := withFilter (withKey State.reset key) 64 3 false bits
def bitsAbc : List (Nat × Word) := [(0, 0x00000020#32), (1, 0x02000020#32)]

/-- `M_MAX` = 64, as in one vector of 95_test_vectors.md section 2.8. -/
def params64 : Params := { mMax := 64, keyMax := 4, sizing := .reference }

/-- A `SIZING` of which one value is known (R146). -/
def paramsRow (m k : Int) : Params := { mMax := 64, keyMax := 4, sizing := .other [⟨1, 1, m, k⟩] }

/-! ### WellFormed -/

theorem test_params_legal : Params.vectors.legal ∧ params64.legal := by decide
theorem test_params_illegal :
    ¬ ({ mMax := 0, keyMax := 4, sizing := .reference } : Params).legal ∧
    ¬ ({ mMax := 2147483648, keyMax := 4, sizing := .reference } : Params).legal ∧
    ¬ ({ mMax := 1, keyMax := 6, sizing := .reference } : Params).legal ∧
    ¬ ({ mMax := 1, keyMax := 0, sizing := .reference } : Params).legal ∧
    ¬ ({ mMax := 1, keyMax := 1073741828, sizing := .reference } : Params).legal := by decide

/-- The offsets of R50 end at `0x100 + KEY_MAX − 4`. -/
theorem test_offsets :
    offsetInBlock Params.vectors 0x1FC = true ∧ offsetInBlock Params.vectors 0x200 = false ∧
    offsetInBlock Params.vectors 0x102 = false ∧ HostEvent.wellFormed Params.vectors (.write 0x001 0) = false ∧
    HostEvent.wellFormed Params.vectors (.read 0x200) = false := by decide

/-- The range of `<value>` (R91). -/
theorem test_values :
    valueInRange (-2147483648) = true ∧ valueInRange (-2147483649) = false ∧ valueInRange 4294967295 = true ∧
    valueInRange 4294967296 = false := by decide

theorem test_locs :
    Loc.wellFormed Params.vectors (.keybuf 63) = true ∧ Loc.wellFormed Params.vectors (.keybuf 64) = false ∧
    Loc.wellFormed Params.vectors (.offset 0x002) = false := by decide

/-- A key literal is at most `KEY_MAX` bytes, and printable (R94). -/
theorem test_keyLits :
    KeyLit.wellFormed params64 (.octets [1, 2, 3, 4]) = true ∧ KeyLit.wellFormed params64 (.octets [1, 2, 3, 4, 5]) = false ∧
    KeyLit.wellFormed params64 (.text ['a', '~']) = true ∧ KeyLit.wellFormed params64 (.text ['\n']) = false ∧
    KeyLit.wellFormed params64 (.text [Char.ofNat 0x7F]) = false := by decide

theorem test_stmts :
    Stmt.wellFormed params64 (.wr (.keybuf 1) 0) = false ∧ Stmt.wellFormed params64 (.wr (.reg .arg0) 4294967296) = false ∧
    Stmt.wellFormed params64 (.rd (.offset 0x103)) = false ∧ Stmt.wellFormed params64 (.key (.octets [0, 0, 0, 0, 0])) = false ∧
    Stmt.wellFormed params64 (.hash (.text ['\t'])) = false ∧ Stmt.wellFormed params64 (.insert (.text ['\t'])) = false ∧
    Stmt.wellFormed params64 (.query (.text ['\t'])) = false ∧ Stmt.wellFormed params64 (.fmix 0 4294967296) = false ∧
    Stmt.wellFormed params64 (.create (-2147483649) 0 none) = false ∧
    Stmt.wellFormed params64 (.createCap 4294967296 ⟨false, 3, 2⟩ none) = false := by decide

/-! ### Decode: the words of R82, bit by bit -/

theorem test_decode_hash : decode 0b00000000000000000000000000000001#32 = .command .hash := by decide
theorem test_decode_fmix : decode 0b00000000000000000000000000000010#32 = .command .fmix := by decide
theorem test_decode_create : decode 0b00000000000000000000000000000011#32 = .command (.create false) := by decide
theorem test_decode_create_fast : decode 0b00000000000000000000000100000011#32 = .command (.create true) := by decide
theorem test_decode_createCap : decode 0b00000000000000000000000000000100#32 = .command (.createCap false) := by decide
theorem test_decode_createCap_fast : decode 0b00000000000000000000000100000100#32 = .command (.createCap true) := by decide
theorem test_decode_insert : decode 0b00000000000000000000000000000101#32 = .command .insert := by decide
theorem test_decode_query : decode 0b00000000000000000000000000000110#32 = .command .query := by decide

/-- Illegal words of R89. -/
theorem test_decode_illegal :
    decode 0x00000000#32 = .illegal .unassignedOp ∧ decode 0x00000007#32 = .illegal .unassignedOp ∧
    decode 0x0000000F#32 = .illegal .unassignedOp ∧ decode 0x00000101#32 = .illegal .fastNotAllowed ∧
    decode 0x00000106#32 = .illegal .fastNotAllowed ∧ decode 0x00000013#32 = .illegal .reservedBits ∧
    decode 0x00000203#32 = .illegal .reservedBits ∧ decode 0x80000001#32 = .illegal .reservedBits := by decide

theorem test_tableWord : decodeTableWord 32 0x103 = some (.create true) ∧ decodeTableWord 32 0x105 = none := by decide

/-- A placed word runs as the next step (R80). -/
theorem test_step_runs_placed_word :
    holds (step ((withArgs 0x3c2569b2 1 0 0).withFetchWord 32 2)) (fun t => t.result == 0x382472b3#32 && t.err == .ok) = true := by
  decide +kernel

/-! ### The hash (95_test_vectors.md sections 2.1 to 2.5) -/

theorem test_primitives :
    rotl32 0xcc9e2d51 15 = 0x16a8e64f#32 ∧ shr32 0x80000000 16 = 0x00008000#32 ∧ mul32 0xFFFFFFFF 0xFFFFFFFF = 0x00000001#32 ∧
    add32 0xe6546b64 0x20000000 = 0x06546b64#32 := by decide +kernel

theorem test_steps :
    chunk [0x21, 0x43, 0x65, 0x87] 0 = 0x87654321#32 ∧ tailWord [0xFF] = 0x000000FF#32 ∧ scramble 0x64636261 = 0x5b9433b7#32 ∧
    fold 0 0x64636261 = 0x86a7049e#32 ∧ mixtail 0x86a7049e 0x65 = 0x0b9a97d7#32 ∧ fmix32 0x80000000 = 0x6d3c65a0#32 := by
  decide +kernel

/-- "abcde", and a key of unsigned bytes. -/
theorem test_hash :
    holds (exec .hash (withKey State.reset [0x61, 0x62, 0x63, 0x64, 0x65])) (fun t => t.result == 0xe89b9af6#32) = true ∧
    holds (exec .hash (withKey State.reset [0x80, 0x81, 0x82, 0x83, 0x84])) (fun t => t.result == 0xb648cb76#32) = true := by
  decide +kernel

/-- `KEY_LEN` = `0xFFFFFFFF` is unsigned. -/
theorem test_hash_too_long :
    holds (exec .hash { State.reset with keyLen := 0xFFFFFFFF, result := 7 }) (fun t => t.err == .keyTooLong && t.result == 7) = true := by
  decide +kernel

theorem test_fmix :
    holds (exec .fmix (withArgs 0x12345678 4 0 0)) (fun t => t.result == 0x45b48b8e#32) = true ∧
    holds (exec .fmix (withArgs 0xe89b9af6 5 0 0)) (fun t => t.result == 0x73d6f30d#32) = true := by decide +kernel

/-! ### Construction (sections 1.2, 2.7, 2.8) -/

theorem test_create_round_trip :
    holds (exec (.create true) (withArgs 1 2 0 0)) (fun t =>
      t.readReg .numBits == 1 && t.readReg .numHash == 2 && t.readReg .mode == 1 && t.readReg .status == 2) = true := by
  decide +kernel

/-- `create(0, 2)`, M = −2^31, and `INVALID_ARGUMENT` before `CAPACITY_EXCEEDED`. -/
theorem test_create_errors :
    holds (exec (.create false) (withArgs 0 2 0 0)) (fun t => t.statusWord == 0x10) = true ∧
    holds (exec (.create false) (withArgs 0x80000000 1 0 0)) (fun t => t.statusWord == 0x10) = true ∧
    holds (exec (.create false) { withArgs 65 0 0 0 with params := params64 }) (fun t => t.statusWord == 0x10) = true ∧
    holds (exec (.create false) { withArgs 65 1 0 0 with params := params64 }) (fun t => t.statusWord == 0x30) = true := by
  decide +kernel

theorem test_createCap :
    holds (exec (.createCap true) (withArgs 1000 0xFFFFFFFF 0xEB851EB8 0x3F9EB851)) (fun t =>
      t.numBits == 0x1C83 && t.numHash == 5 && t.modeWord == 1 && t.statusWord == 2) = true ∧
    holds (exec (.createCap false) (withArgs 0x58B90BFB 0 0 0x3FE00000)) (fun t => t.numBits == 0x7FFFFFFF && t.numHash == 1) = true := by
  decide +kernel

/-- A NaN, and a derived M beyond `M_MAX`. -/
theorem test_createCap_errors :
    holds (exec (.createCap false) (withArgs 1 0 0 0x7FF80000)) (fun t => t.statusWord == 0x10) = true ∧
    holds (exec (.createCap false) (withArgs 0x58B90BFC 0 0 0x3FE00000)) (fun t => t.statusWord == 0x30) = true := by
  decide +kernel

theorem test_sizing :
    sizingRef 1000 0x3F847AE147AE147B = (9586, 7) ∧ sizingRef 1 0x0000000000000001 = (1550, 1074) ∧
    sizingRef 1 0x3FEFFFFFFFFFFFFF = (1, 1) ∧ sizingRef 1000000 0x3F50624DD2F1A9FC = (14377588, 10) := by
  decide +kernel

/-! ### The filter (sections 2.6, 2.9) -/

theorem test_dec : dec 0 = [0x30] ∧ dec 99 = [0x39, 0x39] ∧ dec 100 = [0x31, 0x30, 0x30] := by decide

theorem test_positions :
    positions abd 64 3 true = [26, 31, 62] ∧ positions [] 10 2 false = [9, 1] ∧ positions [] 10 3 true = [0, 0, 0] ∧
    positions [0x6b, 0x65, 0x79] 100 11 false = [31, 61, 80, 48, 1, 47, 83, 29, 10, 90, 53] := by decide +kernel

/-- Sequence A step 2, and sequence B step 2 (a repeated position). -/
theorem test_insert :
    holds (exec .insert (seqA abc [])) (fun t => t.result == 1 && t.bits == bitsAbc) = true ∧
    holds (exec .insert (withFilter (withKey State.reset [0x62]) 8 2 false [(0, 0x05#32)])) (fun t =>
      t.result == 1 && t.bits == [(0, 0x0D#32)]) = true := by decide +kernel

/-- Sequence A steps 4 and 5. -/
theorem test_query :
    holds (exec .query (seqA abc bitsAbc)) (fun t => t.result == 1) = true ∧
    holds (exec .query (seqA abd bitsAbc)) (fun t => t.result == 0 && t.bits == bitsAbc) = true := by decide +kernel

/-! ### The memories, the port, the notation -/

/-- A write of zero removes the entry, a write keeps the addresses rising. -/
theorem test_memory :
    Memory.write unlistedBits [(3, 1#32)] 3 0 = [] ∧ Memory.write unlistedBits [(3, 1#32)] 1 2#32 = [(1, 2#32), (3, 1#32)] ∧
    Memory.write unlistedKey [(3, 1#8)] 3 0 = [(3, 0#8)] := by decide

/-- The lanes of R52, a reserved offset, and the refusals of U13. -/
theorem test_port :
    holds (hostWrite 0x104 0x04030201 State.reset) (fun t => t.keybuf == [(4, 1), (5, 2), (6, 3), (7, 4)]) = true ∧
    holds (hostRead 0x0FC { State.reset with readData := 9 }) (fun t => t.readData == 0) = true ∧
    refusedBy (hostRead 0x200 State.reset) (.offsetOutsideBlock 0x200) = true ∧
    refusedBy (hostWrite 0x00A 1 State.reset) (.unalignedOffset 0x00A) = true := by decide +kernel

/-- The example of R94. -/
theorem test_key_statement :
    expand (.key (.text ['a', 'b', 'c', 'd', 'e'])) =
      [.write 0x100 0x64636261, .write 0x104 0x00000065, .write 0x018 5] := by decide

/-- The pattern of 0.03, of −0.1 and of the least positive number (sections 1.2, 2.7). -/
theorem test_nearestBinary64 :
    nearestBinary64 ⟨false, 3, 2⟩ = 0x3F9EB851EB851EB8 ∧ nearestBinary64 ⟨true, 1, 1⟩ = 0xBFB999999999999A ∧
    nearestBinary64 ⟨false, 5, 324⟩ = 0x0000000000000001 := by decide +kernel

/-- Reset while a command is pending (U16), and a `WAIT` that reads `BUSY` = 1 stays at the head (R93). -/
theorem test_host_turns :
    holds (step { withArgs 5 6 0 0 with pending := some 3, schedule := [.host], inbox := [.reset] }) (fun t =>
      t.arg0 == 0 && t.pending == none && t.resets == 1) = true ∧
    holds (step { State.reset with pending := some 3, schedule := [.host], inbox := [.wait] }) (fun t =>
      t.readData == 1 && t.inbox == [.wait]) = true := by decide +kernel

/-! ### Witnesses: for every obligation with hypotheses, a state and operands that meet them, for each clause, at the boundary of
its range. -/

/-- A key and no filter; a key a byte too long; and the longest key, with a filter of k = 1. -/
def noFilter : State := withKey State.reset abc
def longKey : State := { seqA abc [] with keyLen := 257 }
def longestKey : State := withFilter { State.reset with keyLen := 256 } 64 1 true []

theorem witness_DecodeEncodeRoundTrip :
    Instr.wellFormed (.create true) = true ∧ Instr.wellFormed (.createCap false) = true ∧ Instr.wellFormed .query = true ∧
    decode 0x00000103#32 = .command (.create true) := by decide

theorem witness_ExactlyEightWordsDecode :
    (0x00000000#32 : Word) ∉ [0x00000001#32, 0x00000002#32, 0x00000003#32, 0x00000103#32, 0x00000004#32, 0x00000104#32,
      0x00000005#32, 0x00000006#32] ∧
    (0x00000105#32 : Word) ∉ [0x00000001#32, 0x00000002#32, 0x00000003#32, 0x00000103#32, 0x00000004#32, 0x00000104#32,
      0x00000005#32, 0x00000006#32] := by decide

/-- One word for each way a word is illegal, at the edges of the fields. -/
theorem witness_IllegalWordChangesOnlyErr :
    decode 0x00000000#32 = .illegal .unassignedOp ∧ decode 0x00000007#32 = .illegal .unassignedOp ∧
    decode 0x00000011#32 = .illegal .reservedBits ∧ decode 0x00000201#32 = .illegal .reservedBits ∧
    decode 0x80000003#32 = .illegal .reservedBits ∧ decode 0x00000102#32 = .illegal .fastNotAllowed := by decide

theorem witness_StepRunsDecodedCommand :
    (∃ s : State, s.pending = some 0x1 ∧ s.nextAgent = .block ∧ s.schedule = [] ∧ decode 0x1 = .command .hash) ∧
    (∃ s : State, s.pending = some 0x1 ∧ s.nextAgent = .block ∧ s.schedule = [.block, .host] ∧ decode 0x1 = .command .hash) ∧
    (∃ s : State, s.pending = some 0x0 ∧ s.nextAgent = .block ∧ decode 0x0 = .illegal .unassignedOp) :=
  ⟨⟨{ State.reset with pending := some 0x1 }, by decide⟩,
    ⟨{ State.reset with pending := some 0x1, schedule := [.block, .host] }, by decide⟩,
    ⟨{ State.reset with pending := some 0x0 }, by decide⟩⟩

/-- Both alternatives of the second clause: a step that answers, and the one that does not. -/
theorem witness_EveryCommandCompletes :
    holds (step { State.reset with pending := some 0x9 }) (fun t => t.err == .illegalCommand) = true ∧
    refusedBy (step { State.reset with inbox := [.read 0x200] }) (.offsetOutsideBlock 0x200) = true ∧
    HostEvent.wellFormed Params.vectors (.read 0x200) = false := by decide +kernel

/-- A host that waits, with two turns of the schedule inside the command. -/
def waiting : State := { withArgs 1 2 0 0 with inbox := [.write 0x000 0x103, .wait, .read 0x020], schedule := [.host, .host, .block] }

theorem witness_TwoPhaseAgreesWithAtomic :
    waiting.pending = none ∧ waiting.inbox = .write 0x000 0x103 :: .wait :: [.read 0x020] ∧
    ∃ u, runCommand 0x103 waiting = .next u ∧ u.statusWord = 2 := by
  refine ⟨rfl, rfl, ?_⟩
  obtain ⟨u, h, hu⟩ := next_of (o := runCommand 0x103 waiting) (p := fun t => t.statusWord == 2) (by decide +kernel)
  exact ⟨u, h, by simpa using hu⟩

theorem witness_BusyFollowsCommand :
    (waiting.busy = false ∧ holds (step waiting) (fun t => t.busy) = true) ∧
    (holds (step { State.reset with pending := some 0x1 }) (fun t => !t.busy) = true) ∧
    (holds (step { State.reset with pending := some 0x1, schedule := [.host], inbox := [.reset] }) (fun t => !t.busy) = true) ∧
    (holds (step { State.reset with pending := some 0x1, schedule := [.host], inbox := [.wait] }) (fun t => t.busy) = true) ∧
    ((State.reset.setInbox [.wait, .read 0]).busy = false ∧
      holds (step (State.reset.setInbox [.wait, .read 0])) (fun t => t.inbox == [.read 0]) = true) := by
  decide +kernel

/-- `KEY_LEN` = `KEY_MAX`, `KEY_LEN` = `KEY_MAX` + 1, the empty key, and "abc" in a buffer of four bytes. -/
theorem witness_HashExecutes :
    unsigned longestKey.keyLen = longestKey.params.keyMax ∧ unsigned longKey.keyLen = longKey.params.keyMax + 1 ∧
    State.reset.keyLen = 0 ∧
    (∃ s : State, s.keyLen = 3 ∧ 3 ≤ s.params.keyMax ∧ s.params = params64 ∧ s.keyByte 0 = 0x61 ∧ s.keyByte 1 = 0x62 ∧
      s.keyByte 2 = 0x63) :=
  ⟨by decide, by decide, by decide, ⟨{ withKey State.reset abc with params := params64 }, by decide⟩⟩

theorem witness_FmixExecutes :
    (withArgs 5 5 0 0).arg0 = (withArgs 5 5 0 0).arg1 ∧ (withArgs 0x3c2569b2 1 0 0).arg0 = 0x3c2569b2#32 ∧
    (withArgs 0x3c2569b2 1 0 0).arg1 = 1 := by decide

/-- M = 0, k = 0, M = `M_MAX` + 1, M = `M_MAX`, and the worked example. -/
theorem witness_CreateExecutes :
    (withArgs 0 1 0 0).arg0.toInt ≤ 0 ∧ (withArgs 1 0 0 0).arg1.toInt ≤ 0 ∧
    (∃ s : State, 0 < s.arg0.toInt ∧ 0 < s.arg1.toInt ∧ s.arg0.toInt = (s.params.mMax : Int) + 1) ∧
    (∃ s : State, 0 < s.arg0.toInt ∧ 0 < s.arg1.toInt ∧ s.arg0.toInt = (s.params.mMax : Int)) ∧
    (∃ s : State, s.arg0 = 1 ∧ s.arg1 = 2 ∧ 1 ≤ s.params.mMax) :=
  ⟨by decide, by decide, ⟨{ withArgs 65 1 0 0 with params := params64 }, by decide⟩,
    ⟨{ withArgs 64 1 0 0 with params := params64 }, by decide⟩, ⟨withArgs 1 2 0 0, by decide⟩⟩

/-- n = 0; P = 0 and P = 1.0; with n = 1 and the least P, derived pairs of each kind; and the worked example of R144. -/
theorem witness_CreateCapExecutes :
    (withArgs 0 0 1 0).arg0.toInt ≤ 0 ∧
    (¬ (0x0000000000000001 ≤ ((withArgs 1 0 0 0).arg3 ++ (withArgs 1 0 0 0).arg2).toNat ∧
      ((withArgs 1 0 0 0).arg3 ++ (withArgs 1 0 0 0).arg2).toNat ≤ 0x3FEFFFFFFFFFFFFF)) ∧
    (∀ mk ∈ ([(0, 1), (1, 0), (65, 1), (64, 2147483648), (64, 2147483647)] : List (Int × Int)),
      ∃ s : State, Params.sizingOf s.params s.arg0.toInt (s.arg3 ++ s.arg2) = mk ∧ s.params.mMax = 64 ∧ 0 < s.arg0.toInt ∧
        0x0000000000000001 ≤ (s.arg3 ++ s.arg2).toNat ∧ (s.arg3 ++ s.arg2).toNat ≤ 0x3FEFFFFFFFFFFFFF) ∧
    (∃ s : State, s.params.sizing = .reference ∧ 7299 ≤ s.params.mMax ∧ s.arg0 = 0x000003E8#32 ∧ s.arg3 = 0x3F9EB851#32 ∧
      s.arg2 = 0xEB851EB8#32) := by
  refine ⟨by decide, by decide, ?_, ⟨withArgs 1000 0 0xEB851EB8 0x3F9EB851, by decide⟩⟩
  intro mk h
  simp only [List.mem_cons, List.not_mem_nil, or_false] at h
  rcases h with rfl | rfl | rfl | rfl | rfl
  · exact ⟨{ withArgs 1 0 1 0 with params := paramsRow 0 1 }, by decide +kernel⟩
  · exact ⟨{ withArgs 1 0 1 0 with params := paramsRow 1 0 }, by decide +kernel⟩
  · exact ⟨{ withArgs 1 0 1 0 with params := paramsRow 65 1 }, by decide +kernel⟩
  · exact ⟨{ withArgs 1 0 1 0 with params := paramsRow 64 2147483648 }, by decide +kernel⟩
  · exact ⟨{ withArgs 1 0 1 0 with params := paramsRow 64 2147483647 }, by decide +kernel⟩

theorem seqA_bits (p : Nat) : bitAt bitsAbc p = true ↔ p = 57 ∨ p = 5 ∨ p = 37 := by
  have h : ∀ q < 64, bitAt bitsAbc q = true ↔ q = 57 ∨ q = 5 ∨ q = 37 := by decide +kernel
  by_cases hp : p < 64
  · exact h p hp
  · have : bitAt bitsAbc p = false := by
      have h0 : ¬ p / 32 = 0 := by omega
      have h1 : ¬ p / 32 = 1 := by omega
      simp [bitAt, bitsWord, bitsAbc, Memory.read?, h0, h1]
    rw [this]
    constructor
    · intro h; cases h
    · omega

/-- No filter; a key a byte too long; a fresh filter and a filter that holds the key. -/
theorem witness_InsertExecutes :
    noFilter.valid = false ∧ (longKey.valid = true ∧ longKey.params.keyMax < unsigned longKey.keyLen) ∧
    ((seqA abc []).valid = true ∧ unsigned (seqA abc []).keyLen ≤ (seqA abc []).params.keyMax ∧
      (∃ p ∈ (seqA abc []).positions, bitAt (seqA abc []).bits p = false)) ∧
    ((seqA abc bitsAbc).valid = true ∧ unsigned (seqA abc bitsAbc).keyLen ≤ (seqA abc bitsAbc).params.keyMax ∧
      (∀ p ∈ (seqA abc bitsAbc).positions, bitAt (seqA abc bitsAbc).bits p = true)) ∧
    ((seqA abc []).valid = true ∧ 3 ≤ (seqA abc []).params.keyMax ∧ (seqA abc []).numBits = 64 ∧ (seqA abc []).numHash = 3 ∧
      (seqA abc []).fast = false ∧ (seqA abc []).key = [0x61, 0x62, 0x63] ∧ ∀ p, bitAt (seqA abc []).bits p = false) :=
  ⟨by decide, by decide +kernel, by decide +kernel, by decide +kernel,
    by decide, by decide, by decide, by decide, by decide, by decide +kernel, fun p => by simp [seqA, withFilter, bitAt, bitsWord]⟩

theorem witness_QueryExecutes :
    noFilter.valid = false ∧ (longKey.valid = true ∧ longKey.params.keyMax < unsigned longKey.keyLen) ∧
    ((seqA abc bitsAbc).valid = true ∧ unsigned (seqA abc bitsAbc).keyLen ≤ (seqA abc bitsAbc).params.keyMax ∧
      (∀ p ∈ (seqA abc bitsAbc).positions, bitAt (seqA abc bitsAbc).bits p = true)) ∧
    (∃ p ∈ (seqA abd bitsAbc).positions, bitAt (seqA abd bitsAbc).bits p = false) ∧
    ((seqA abd bitsAbc).valid = true ∧ 3 ≤ (seqA abd bitsAbc).params.keyMax ∧ (seqA abd bitsAbc).numBits = 64 ∧
      (seqA abd bitsAbc).numHash = 3 ∧ (seqA abd bitsAbc).fast = false ∧ (seqA abd bitsAbc).key = [0x61, 0x62, 0x64] ∧
      (seqA abc bitsAbc).key = [0x61, 0x62, 0x63] ∧
      ∀ p, bitAt (seqA abd bitsAbc).bits p = true ↔ p = 57 ∨ p = 5 ∨ p = 37) :=
  ⟨by decide, by decide +kernel, by decide +kernel, by decide +kernel,
    by decide, by decide, by decide, by decide, by decide, by decide +kernel, by decide +kernel, seqA_bits⟩

/-- Each of the three commands, with a success and, where there is one, an error. -/
theorem witness_HashFmixQueryFrame :
    holds (exec .hash noFilter) (fun t => t.err == .ok) = true ∧ holds (exec .hash longKey) (fun t => t.err == .keyTooLong) = true ∧
    holds (exec .fmix noFilter) (fun t => t.err == .ok) = true ∧
    holds (exec .query (seqA abc [])) (fun t => t.err == .ok) = true ∧
    holds (exec .query noFilter) (fun t => t.err == .noFilter) = true := by decide +kernel

theorem witness_ConstructionFrame :
    holds (exec (.create true) (withArgs 1 2 0 0)) (fun t => t.err == .ok) = true ∧
    holds (exec (.create false) { seqA abc bitsAbc with arg0 := 0 }) (fun t => t.err == .invalidArgument) = true ∧
    holds (exec (.createCap true) (withArgs 1000 0 0xEB851EB8 0x3F9EB851)) (fun t => t.err == .ok) = true ∧
    holds (exec (.createCap false) (withArgs 0x58B90BFC 0 0 0x3FE00000)) (fun t => t.err == .capacityExceeded) = true := by
  decide +kernel

theorem witness_InsertFrame :
    holds (exec .insert (seqA abc [])) (fun t => t.err == .ok) = true ∧
    holds (exec .insert noFilter) (fun t => t.err == .noFilter) = true ∧
    holds (exec .insert longKey) (fun t => t.err == .keyTooLong) = true ∧ 56 ∉ (seqA abc []).positions := by decide +kernel

theorem witness_CodesPerCommandComplete :
    decode 0xFFFFFFFF#32 = .illegal .reservedBits ∧
    holds (runCommand 0xFFFFFFFF State.reset) (fun t => t.err == .illegalCommand) = true := by decide +kernel

/-- One state for each of the five errors. -/
theorem witness_ErrorChangesOnlyStatus :
    holds (runCommand 0x3 State.reset) (fun t => t.err == .invalidArgument) = true ∧
    holds (runCommand 0x5 State.reset) (fun t => t.err == .noFilter) = true ∧
    holds (runCommand 0x4 (withArgs 0x58B90BFC 0 0 0x3FE00000)) (fun t => t.err == .capacityExceeded) = true ∧
    holds (runCommand 0x0 State.reset) (fun t => t.err == .illegalCommand) = true ∧
    holds (runCommand 0x1 longKey) (fun t => t.err == .keyTooLong) = true := by decide +kernel

/-- M = 0, k = −2^31, n = 0, P = 1.0, derived M = 0, derived k = 0; and commands that do not raise it. -/
theorem witness_InvalidArgumentExactlyWhen :
    holds (exec (.create false) (withArgs 0 1 0 0)) (fun t => t.err == .invalidArgument) = true ∧
    holds (exec (.create true) (withArgs 1 0x80000000 0 0)) (fun t => t.err == .invalidArgument) = true ∧
    holds (exec (.createCap false) (withArgs 0 0 1 0)) (fun t => t.err == .invalidArgument) = true ∧
    holds (exec (.createCap true) (withArgs 1 0 0 0x3FF00000)) (fun t => t.err == .invalidArgument) = true ∧
    holds (exec (.createCap false) { withArgs 1 0 1 0 with params := paramsRow 0 1 }) (fun t => t.err == .invalidArgument) = true ∧
    holds (exec (.createCap false) { withArgs 1 0 1 0 with params := paramsRow 1 0 }) (fun t => t.err == .invalidArgument) = true ∧
    holds (exec (.create false) (withArgs 1 1 0 0)) (fun t => t.err == .ok) = true ∧
    holds (exec .query noFilter) (fun t => t.err == .noFilter) = true := by decide +kernel

theorem witness_NoFilterExactlyWhen :
    holds (exec .insert noFilter) (fun t => t.err == .noFilter) = true ∧
    holds (exec .query { longKey with valid := false }) (fun t => t.err == .noFilter) = true ∧
    holds (exec .query (seqA abc [])) (fun t => t.err == .ok) = true ∧
    holds (exec .hash noFilter) (fun t => t.err == .ok) = true := by decide +kernel

/-- M = `M_MAX` + 1, derived M = `M_MAX` + 1, derived k = 2^31; and M = `M_MAX`, k = 2^31 − 1, which fit. -/
theorem witness_CapacityExceededExactlyWhen :
    holds (exec (.create false) { withArgs 65 1 0 0 with params := params64 }) (fun t => t.err == .capacityExceeded) = true ∧
    holds (exec (.create false) { withArgs 64 0x7FFFFFFF 0 0 with params := params64 }) (fun t => t.err == .ok) = true ∧
    holds (exec (.createCap true) { withArgs 1 0 1 0 with params := paramsRow 65 1 }) (fun t => t.err == .capacityExceeded) = true ∧
    holds (exec (.createCap true) { withArgs 1 0 1 0 with params := paramsRow 64 2147483648 }) (fun t =>
      t.err == .capacityExceeded) = true ∧
    holds (exec (.createCap true) { withArgs 1 0 1 0 with params := paramsRow 64 2147483647 }) (fun t => t.err == .ok) = true := by
  decide +kernel

theorem witness_KeyTooLongExactlyWhen :
    holds (exec .hash longKey) (fun t => t.err == .keyTooLong) = true ∧
    holds (exec .insert longKey) (fun t => t.err == .keyTooLong) = true ∧
    holds (exec .query longKey) (fun t => t.err == .keyTooLong) = true ∧
    holds (exec .insert { longKey with valid := false }) (fun t => t.err == .noFilter) = true ∧
    holds (exec .hash noFilter) (fun t => t.err == .ok) = true := by decide +kernel

/-- Two conditions at once, for each clause. -/
theorem witness_ChecksInOrder :
    (∃ why, decode 0x00000103#32 ≠ .illegal why ∧ decode 0x00000113#32 = .illegal why) ∧
    (({ longKey with valid := false } : State).valid = false ∧
      ({ longKey with valid := false } : State).params.keyMax < unsigned ({ longKey with valid := false } : State).keyLen) ∧
    longKey.params.keyMax < unsigned longKey.keyLen ∧
    (∃ s : State, (s.params.mMax : Int) < s.arg0.toInt ∧ s.arg1.toInt ≤ 0) ∧
    (∃ s : State, s.arg0.toInt ≤ 0 ∧ Params.sizingOf s.params s.arg0.toInt (s.arg3 ++ s.arg2) = (65, 1) ∧ (s.params.mMax : Int) < 65) ∧
    (∃ s : State, Params.sizingOf s.params s.arg0.toInt (s.arg3 ++ s.arg2) = (65, 0) ∧ (s.params.mMax : Int) < 65) ∧
    (∃ s : State, Params.sizingOf s.params s.arg0.toInt (s.arg3 ++ s.arg2) = (0, 2147483648)) ∧
    (∃ s : State, inOpenUnit (s.arg3 ++ s.arg2) = false ∧
      Params.sizingOf s.params s.arg0.toInt (s.arg3 ++ s.arg2) = (65, 1) ∧ (s.params.mMax : Int) < 65) :=
  ⟨⟨.reservedBits, by decide⟩, by decide +kernel, by decide +kernel,
    ⟨{ withArgs 65 0 0 0 with params := params64 }, by decide⟩,
    ⟨{ withArgs 0 0 1 0 with params := { mMax := 64, keyMax := 4, sizing := .other [⟨0, 1, 65, 1⟩] } }, by decide +kernel⟩,
    ⟨{ withArgs 1 0 1 0 with params := paramsRow 65 0 }, by decide +kernel⟩,
    ⟨{ withArgs 1 0 1 0 with params := paramsRow 0 2147483648 }, by decide +kernel⟩,
    ⟨{ withArgs 1 0 0 0 with params := { mMax := 64, keyMax := 4, sizing := .other [⟨1, 0, 65, 1⟩] } }, by decide +kernel⟩⟩

/-- A host's turn while no command is pending, and one inside a command. -/
theorem witness_ErrIsTheLastCompletionCode :
    (holds (step waiting) (fun _ => true) = true ∧ waiting.busy = false ∧ waiting.resetNext = false) ∧
    (∃ s : State, holds (step s) (fun _ => true) = true ∧ s.busy = true ∧ s.nextAgent = .host ∧ s.resetNext = false) :=
  ⟨by decide +kernel, ⟨{ State.reset with pending := some 1, schedule := [.host], inbox := [.wait] }, by decide +kernel⟩⟩

/-- Between commands, and inside one. -/
theorem witness_ResetEventResets :
    (∃ s : State, s.hostMoves = true ∧ s.busy = false ∧ s.inbox = .reset :: []) ∧
    (∃ s : State, s.hostMoves = true ∧ s.busy = true ∧ s.inbox = .reset :: []) :=
  ⟨⟨{ State.reset with inbox := [.reset] }, by decide⟩,
    ⟨{ State.reset with inbox := [.reset], pending := some 1, schedule := [.host] }, by decide⟩⟩

/-- A write of each of the five registers, and each of the four commands that write `RESULT`. -/
theorem witness_GeneralRegistersKept :
    (∀ r ∈ [RegName.arg0, .arg1, .arg2, .arg3, .keyLen],
      (State.reset.setInbox [.write (regOffset r) 5]).busy = false ∧
      (State.reset.setInbox [.write (regOffset r) 5]).resetNext = false ∧
      holds (step (State.reset.setInbox [.write (regOffset r) 5])) (fun t => t.readReg r == 5) = true) ∧
    holds (step ((seqA abc []).withPending 0x1)) (fun t => t.result == 0xb3dd93fa#32) = true ∧
    holds (step ((withArgs 1 0 0 0).withPending 0x2)) (fun t => t.result == 0x514e28b7#32) = true ∧
    holds (step ((seqA abc []).withPending 0x5)) (fun t => t.result == 1) = true ∧
    holds (step ((seqA abc bitsAbc).withPending 0x6)) (fun t => t.result == 1) = true ∧
    ((seqA abc []).withPending 0x1).resetNext = false := by decide +kernel

theorem witness_ValidFromConstructionToReset :
    holds (exec (.create false) (withArgs 1 1 0 0)) (fun t => t.err == .ok) = true ∧
    holds (exec (.createCap false) (withArgs 1 0 1 0)) (fun t => t.err == .ok) = true ∧
    (holds (step { seqA abc [] with pending := some 5 }) (fun _ => true) = true ∧
      State.resetNext { seqA abc [] with pending := some 5 } = false) ∧
    holds (step { withArgs 1 1 0 0 with pending := some 3 }) (fun t => t.valid) = true ∧
    noFilter.valid = false := by decide +kernel

/-- A failed construction, which ends no filter instance; and a step of a legal state with a filter. -/
theorem witness_FilterRegistersFixed :
    (∃ s t : State, step s = .next t ∧ s.pending = some 3 ∧ s.valid = true ∧ ¬ endsFilter s t) ∧
    ((seqA abc []).params.legal ∧ holds (step (seqA abc [])) (fun t => t.valid) = true ∧ 1 ≤ (seqA abc []).numBits.toInt ∧
      1 ≤ (seqA abc []).numHash.toInt) := by
  refine ⟨?_, by decide +kernel⟩
  let s : State := { seqA abc [] with pending := some 3 }
  have h : holds (step s) (fun t => t.err == .invalidArgument) = true := by decide +kernel
  obtain ⟨t, ht, he⟩ := next_of h
  refine ⟨s, t, ht, rfl, rfl, ?_⟩
  rintro (hr | ⟨i, _, _, hk⟩)
  · exact absurd hr (by decide +kernel)
  · rw [hk] at he; simp at he

theorem witness_BitsOnlyRise :
    (holds (exec .insert (seqA abd bitsAbc)) (fun _ => true) = true ∧ bitAt (seqA abd bitsAbc).bits 57 = true) ∧
    holds (exec .insert (seqA abd bitsAbc)) (fun t => bitAt t.bits 34) = true ∧ bitAt (seqA abd bitsAbc).bits 34 = false ∧
    holds (exec (.create false) { seqA abc bitsAbc with arg0 := 8, arg1 := 2 }) (fun t => t.err == .ok && t.numBits == 8) = true ∧
    (((seqA abc bitsAbc).setInbox [.write 0x100 1]).hostMoves = true ∧
      ((seqA abc bitsAbc).setInbox [.write 0x100 1]).resetNext = false ∧
      holds (step ((seqA abc bitsAbc).setInbox [.write 0x100 1])) (fun t => bitAt t.bits 57) = true) := by
  decide +kernel

/-- Each of the eleven values, in a state that meets the invariant. -/
theorem witness_StatusValuesReadable :
    (∀ c ∈ [Code.ok, .invalidArgument, .noFilter, .capacityExceeded, .illegalCommand, .keyTooLong],
      (State.reset.complete c).Inv ∧ (State.reset.complete c).busy = false) ∧
    (∀ c ∈ [Code.ok, .invalidArgument, .capacityExceeded, .illegalCommand, .keyTooLong],
      ((seqA abc bitsAbc).complete c).Inv ∧ ((seqA abc bitsAbc).complete c).busy = false) := by
  refine ⟨fun c h => ?_, fun c h => ?_⟩
  · cases c <;> exact ⟨by decide, rfl⟩
  · cases c <;> first | exact ⟨by decide +kernel, rfl⟩ | simp at h

/-- A step of the host and a step of the block from states that meet the invariant. -/
theorem witness_StepKeepsInvariant :
    ((State.reset.setInbox [.write 0x1FC 0x00FF00FF]).Inv ∧
      holds (step (State.reset.setInbox [.write 0x1FC 0x00FF00FF])) (fun t => t.keybuf.length == 4) = true) ∧
    (((seqA abd bitsAbc).withPending 5).Inv ∧
      holds (step ((seqA abd bitsAbc).withPending 5)) (fun t => t.bits.length == 2) = true) :=
  ⟨⟨by decide, by decide +kernel⟩, ⟨by decide +kernel, by decide +kernel⟩⟩

/-- The first and the last word; and a step that changes byte 1. -/
theorem witness_KeyBufferWordLanes :
    (State.reset.busy = false ∧ 0 < State.reset.params.keyMax / 4 ∧ 63 < State.reset.params.keyMax / 4) ∧
    (((seqA abc []).setInbox [.write 0x100 0x00007A61]).resetNext = false ∧ (seqA abc []).keyByte 1 = 0x62 ∧
      holds (step ((seqA abc []).setInbox [.write 0x100 0x00007A61])) (fun t => t.keyByte 1 == 0x7A) = true) := by
  decide +kernel

/-- The reserved offsets end at `0x0FC`. -/
theorem witness_RegisterSpaceAccess :
    State.reset.busy = false ∧ (0x02C ≤ 0x02C ∧ 0x02C < 0x100 ∧ 0x02C % 4 = 0) ∧ (0x02C ≤ 0x0FC ∧ 0x0FC < 0x100 ∧ 0x0FC % 4 = 0) := by
  decide

theorem witness_TransactionsWhileBusy :
    State.busy { State.reset with pending := some 1 } = true ∧
    offsetInBlock State.reset.params 0x000 = true ∧ offsetInBlock State.reset.params 0x1FC = true := by decide

/-- The empty key, one byte, and a key that fills the buffer. -/
theorem witness_KeyStatementLoadsKey :
    ∀ b ∈ [KeyLit.text [], .octets [0xFF], .text ['a', 'b', 'c', 'd']],
      params64.legal ∧ State.busy { State.reset with params := params64, inbox := expandKey b ++ [.wait] } = false ∧
      b.wellFormed params64 = true := by decide

theorem witness_NotationExpandsWithinThePort :
    Params.vectors.legal ∧
    (∀ st ∈ [Stmt.wr (.keybuf 63) 1, .rd (.offset 0x1FC), .wait, .key (.text ['a']), .bare .hash, .hash (.octets [0]),
        .insert (.octets []), .query (.text ['z']), .fmix (-1) 4294967295, .create 64 3 none, .createCap 1000 ⟨false, 3, 2⟩ (some true)],
      st.wellFormed Params.vectors = true) ∧
    HostEvent.write 0x1FC 1 ∈ expand (.wr (.keybuf 63) 1) := by decide

theorem witness_PrimitivesOfWords : (31 ≤ 31) ∧ (1 ≤ 1 ∧ 1 ≤ 31) ∧ (1 ≤ 31 ∧ 31 ≤ 31) := by decide

/-- Byte 3, inside and beyond the tail. -/
theorem witness_ChunkAndTailLanes : (3 < 4) ∧ (2 < [1#8, 2#8, 3#8].length % 4) ∧ ¬ (3 < [1#8, 2#8, 3#8].length % 4) := by decide

theorem witness_HashScansInOrder : ([] : List Byte).length % 4 = 0 ∧ [1#8, 2#8, 3#8, 4#8].length % 4 = 0 := by decide

theorem witness_DecimalSuffix : (0 ≤ 2147483646) ∧ (2147483646 ≤ 2147483646 ∧ 2147483646 ≠ 0) := by decide

theorem witness_PositionOfHash : (1 ≤ 1) ∧ (1 ≤ 2147483647) := by decide

theorem witness_PositionsOfAKey : (0 < 1) ∧ (2 < 3) := by decide

/-- Two buffers that differ above `KEY_LEN` only. -/
theorem witness_KeyBytesBeyondLengthIgnored :
    (∀ j, j < unsigned noFilter.keyLen →
      State.keyByte { noFilter with keybuf := [(0, 0x61), (1, 0x62), (2, 0x63), (3, 0xFF)] } j = noFilter.keyByte j) ∧
    noFilter.keybuf ≠ [(0, 0x61), (1, 0x62), (2, 0x63), (3, 0xFF)] ∧ holds (exec .hash noFilter) (fun _ => true) = true := by
  decide +kernel

theorem witness_FinalizeMixIdentity : abc.length < 2 ^ 32 := by decide

theorem witness_OperandsNotInTheFrameUnread :
    holds (exec (.create true) (withArgs 1 2 0 0)) (fun _ => true) = true ∧
    holds (exec (.createCap true) (withArgs 1 2 1 0)) (fun _ => true) = true ∧
    holds (exec .fmix (withArgs 1 2 0 0)) (fun _ => true) = true ∧
    holds (exec .hash (seqA abc [])) (fun _ => true) = true ∧ holds (exec .insert (seqA abc [])) (fun _ => true) = true ∧
    holds (exec .query (seqA abc [])) (fun _ => true) = true ∧
    holds (exec (.create true) (withArgs 0 2 0 0)) (fun t => t.err == .invalidArgument) = true ∧
    holds (exec (.create true) (withArgs 1 2 0 0)) (fun t => t.err == .ok && t.numBits == 1) = true := by decide +kernel

theorem witness_UnconstructedBitsUnread :
    noFilter.valid = false ∧ holds (exec .query noFilter) (fun t => !t.valid) = true ∧
    (withArgs 1 1 0 0).valid = false ∧ holds (exec (.create false) (withArgs 1 1 0 0)) (fun t => t.valid) = true := by decide +kernel

theorem witness_ConstructionReplacesOrKeeps :
    holds (exec (.create false) (seqA abc bitsAbc)) (fun t => t.err == .invalidArgument) = true ∧
    holds (exec .query (seqA abc bitsAbc)) (fun _ => true) = true ∧
    holds (exec (.create true) { seqA abc bitsAbc with arg0 := 8, arg1 := 2 }) (fun t => t.err == .ok) = true ∧
    holds (exec (.createCap true) { seqA abc bitsAbc with arg0 := 1, arg2 := 1 }) (fun t => t.err == .ok) = true := by decide +kernel

/-- The filter of sequence A, in which the host next runs `QUERY`. -/
def oneFilter : State := { seqA abc [] with inbox := [.write 0x000 0x6, .wait] }

/-- An `INSERT` that completed with `OK`, and a run of two steps (the `CMD` write and the `QUERY`) on the same filter. -/
theorem oneFilter_run :
    ∃ t u : State, exec .insert oneFilter = .next t ∧ t.err = .ok ∧ SameFilterRun t u ∧ u.result = 1 ∧ u.key = oneFilter.key := by
  have h1 := next_after (o := exec .insert oneFilter) (by decide +kernel)
  have h2 := next_after (o := step (after (exec .insert oneFilter))) (by decide +kernel)
  have h3 := next_after (o := step (after (step (after (exec .insert oneFilter))))) (by decide +kernel)
  refine ⟨_, _, h1, by decide +kernel, .step (.step (.refl _) h2 ?_) h3 ?_, by decide +kernel, by decide +kernel⟩
  · rintro (hr | ⟨i, ⟨w, hw, _, _⟩, _, _⟩)
    · exact absurd hr (by decide +kernel)
    · have : (after (exec .insert oneFilter)).pending = none := by decide +kernel
      rw [this] at hw; cases hw
  · rintro (hr | ⟨i, ⟨w, hw, _, hd⟩, hc, _⟩)
    · exact absurd hr (by decide +kernel)
    · have hp : (after (step (after (exec .insert oneFilter)))).pending = some 0x6 := by decide +kernel
      rw [hp] at hw
      cases hw
      have : i = .query := by
        have h6 : decode 0x6 = .command .query := by decide
        rw [h6] at hd
        exact (Decoded.command.inj hd).symm
      subst this
      simp [Instr.constructs] at hc

theorem witness_SecondInsertReturnsFalse :
    (∃ t u : State, exec .insert oneFilter = .next t ∧ t.err = .ok ∧ SameFilterRun t u ∧ u.key = oneFilter.key) ∧
    1 ≤ unsigned oneFilter.numHash ∧ ∀ p, bitAt oneFilter.bits p = false := by
  obtain ⟨t, u, h1, h2, h3, _, h5⟩ := oneFilter_run
  exact ⟨⟨t, u, h1, h2, h3, h5⟩, by decide, fun p => by simp [oneFilter, seqA, withFilter, bitAt, bitsWord]⟩

theorem witness_NoFalseNegatives :
    ∃ s t u : State, exec .insert s = .next t ∧ t.err = .ok ∧ SameFilterRun t u ∧ u.key = s.key := by
  obtain ⟨t, u, h1, h2, h3, _, h5⟩ := oneFilter_run
  exact ⟨oneFilter, t, u, h1, h2, h3, h5⟩

/-- k = 1 and the longest key. -/
theorem witness_FreshFilterContainsNothing :
    (withArgs 1 1 0 0).params.legal ∧
    holds (exec (.create true) (withArgs 1 1 0 0)) (fun t => t.err == .ok && decide (unsigned 256#32 ≤ t.params.keyMax)) = true ∧
    holds (exec (.createCap true) (withArgs 1 1 1 0)) (fun t => t.err == .ok) = true := by decide +kernel

/-- A filter of one bit, which is 1. -/
theorem witness_InsertNeverRunsOutOfCapacity :
    ∃ s : State, s.valid = true ∧ unsigned s.keyLen ≤ s.params.keyMax ∧ 1 ≤ unsigned s.numBits ∧
      ∀ p, p < unsigned s.numBits → bitAt s.bits p = true :=
  ⟨withFilter (withKey State.reset abc) 1 2 true [(0, 1#32)], by decide +kernel⟩

theorem witness_ProbabilityStrictlyBetween :
    inOpenUnit 0x0000000000000001 = true ∧ inOpenUnit 0x3FEFFFFFFFFFFFFF = true ∧ inOpenUnit 0x3FF0000000000000 = false ∧
    inOpenUnit 0x8000000000000000 = false ∧ inOpenUnit 0 = false := by decide

/-- The accepted pattern 0.5 stands for a number, so `SIZING_REF` has a pair for it. -/
theorem sizingRef_half (n : Int) : ∃ m k, IsSizingRef n 0x3FE0000000000000 m k := by
  have h : ∃ q, binary64Value 0x3FE0000000000000 = some q := by
    simp [binary64Value, binary64Exponent]
  obtain ⟨q, hq⟩ := h
  exact ⟨_, _, q, hq, rfl, rfl⟩

theorem witness_ReferenceSizingPositive :
    (∃ (n : Int) (p : BitVec 64) (m k : Int), 1 ≤ n ∧ inOpenUnit p = true ∧ IsSizingRef n p m k) ∧
    Params.vectors.sizing = .reference := by
  obtain ⟨m, k, h⟩ := sizingRef_half 1
  exact ⟨⟨1, 0x3FE0000000000000, m, k, by decide, by decide, h⟩, rfl⟩

/-- The hypotheses together, and bounds of M that agree; the value is that of R147. -/
theorem witness_ComputedSizingIsReference :
    Params.vectors.sizing = .reference ∧ (1 : Int) ≤ 2147483647 ∧ inOpenUnit 0x3FE0000000000000 = true ∧
    (∃ m k, IsSizingRef 2147483647 0x3FE0000000000000 m k) ∧
    sizingRef 2147483647 0x3FE0000000000000 = (3098164008, 1) :=
  ⟨rfl, by decide, by decide, sizingRef_half _, by decide +kernel⟩

end Sys2Proof.Tests
end

section
/-! The word primitives of the hash engine (R10) as the operations of 32-bit words. -/

namespace Sys2Proof.Machine

/-- `add32` (R10) is the wraparound sum. -/
theorem add32_eq_add (a b : Word) : add32 a b = a + b := by
  apply BitVec.eq_of_toNat_eq
  rw [add32, BitVec.toNat_ofNat, BitVec.toNat_add, Nat.mod_mod, Nat.add_comm]

/-- `mul32` (R10) is the wraparound product. -/
theorem mul32_eq_mul (a b : Word) : mul32 a b = a * b := by
  apply BitVec.eq_of_toNat_eq
  rw [mul32, BitVec.toNat_ofNat, BitVec.toNat_mul, Nat.mod_mod, Nat.mul_comm]

/-- `shr32` (R10) is the logical right shift, whatever the shift count. -/
theorem shr32_eq_ushiftRight (a : Word) (r : Nat) : shr32 a r = a >>> r := by
  have hlt : a.toNat / 2 ^ r < 2 ^ 32 := (Nat.div_le_self _ _).trans_lt a.isLt
  apply BitVec.eq_of_toNat_eq
  rw [shr32, BitVec.toNat_ofNat, Nat.mod_eq_of_lt hlt, BitVec.toNat_ushiftRight, Nat.shiftRight_eq_div_pow]

/-- The two parts of a `w`-bit rotation by `r` share no bit: the first is a multiple of `2 ^ r`, the second is below it. So
their sum, as R10 writes the rotation, is their bitwise or. -/
theorem rotate_parts_add_eq_or {w r n : Nat} (hr : r ≤ w) (hn : n < 2 ^ w) :
    2 ^ r * n % 2 ^ w + n / 2 ^ (w - r) = 2 ^ r * n % 2 ^ w ||| n / 2 ^ (w - r) := by
  have hw : 2 ^ w = 2 ^ r * 2 ^ (w - r) := by rw [← Nat.pow_add, Nat.add_sub_cancel' hr]
  have hlow : n / 2 ^ (w - r) < 2 ^ r := Nat.div_lt_of_lt_mul (by rwa [Nat.mul_comm, ← hw])
  rw [hw, Nat.mul_mod_mul_left]
  exact Nat.two_pow_add_eq_or_of_lt hlow _

/-- `rotl32` (R10) is the circular rotation, for every count below the width. -/
theorem rotl32_eq_rotateLeft (a : Word) {r : Nat} (hr : r < 32) : rotl32 a r = a.rotateLeft r := by
  have hor : (a.rotateLeft r).toNat = 2 ^ r * a.toNat % 2 ^ 32 ||| a.toNat / 2 ^ (32 - r) := by
    rw [BitVec.toNat_rotateLeft, Nat.mod_eq_of_lt hr, Nat.shiftLeft_eq, Nat.shiftRight_eq_div_pow, Nat.mul_comm]
  rw [rotl32, rotate_parts_add_eq_or hr.le a.isLt, ← hor, BitVec.ofNat_toNat, BitVec.setWidth_eq]

/-- Settles O43: each primitive by its lemma; the rotation holds because its two parts share no bit. -/
theorem primitivesOfWords : Obligations.PrimitivesOfWords := by
  refine ⟨fun a b => ⟨add32_eq_add a b, mul32_eq_mul a b⟩, fun a r _ => shr32_eq_ushiftRight a r, fun a r _ hr => ?_⟩
  exact rotl32_eq_rotateLeft a (Nat.lt_succ_of_le hr)

end Sys2Proof.Machine
end

section
/-! The two kinds of step (R20, R229): the host's turn and the block's turn, and everything each can change. -/

namespace Sys2Proof.Machine

/-! ### Whose turn it is -/

/-- The host moves when no command is pending or the schedule gives it the turn (R229). -/
theorem State.hostMoves_iff (s : State) : s.hostMoves = true ↔ s.busy = false ∨ s.nextAgent = .host := by
  unfold State.hostMoves State.busy
  cases s.pending <;> simp

/-- When the host moves, the next step is the reset exactly when the reset is its next event (R220). -/
theorem State.resetNext_of_hostMoves {s : State} (hm : s.hostMoves = true) :
    s.resetNext = true ↔ s.inbox.head? = some .reset := by
  simp [State.resetNext, hm]

/-- With no command pending a step serves the host (R22). -/
theorem step_idle {s : State} (hb : s.busy = false) : step s = serveHost s := by
  have hp : s.pending = none := by simpa [State.busy] using hb
  simp [step, stepAgents, hp]

/-- With a command pending and the turn the host's, a step serves the host and uses up the turn (R229). -/
theorem step_busy_host {s : State} (hb : s.busy = true) (ha : s.nextAgent = .host) : step s = serveHost s.passTurn := by
  obtain ⟨w, hw⟩ := Option.isSome_iff_exists.mp hb
  simp [step, stepAgents, hw, ha]

/-- The turns of a step: the host is served, from a state that differs in the schedule at most, or the block runs the pending
word. -/
theorem step_turns {s t : State} (h : step s = .next t) :
    (s.hostMoves = true ∧ ∃ sch, serveHost { s with schedule := sch } = .next t) ∨
    (s.hostMoves = false ∧ ∃ w, s.pending = some w ∧ s.nextAgent = .block ∧ runCommand w s.passTurn = .next t) := by
  rcases step_cases h with ⟨hp, ht⟩ | ⟨w, hp, ha, ht⟩ | ⟨w, hp, ha, ht⟩
  · exact .inl ⟨by simp [State.hostMoves, hp], s.schedule, ht⟩
  · exact .inr ⟨by simp [State.hostMoves, hp, ha], w, hp, ha, ht⟩
  · exact .inl ⟨by simp [State.hostMoves, hp, ha], s.schedule.tail, ht⟩

/-- The host's turn. -/
theorem step_hostTurn {s t : State} (h : step s = .next t) (hm : s.hostMoves = true) :
    ∃ sch, serveHost { s with schedule := sch } = .next t := by
  rcases step_turns h with ⟨_, ht⟩ | ⟨hf, _⟩
  · exact ht
  · simp [hm] at hf

/-- The block's turn. -/
theorem step_blockTurn {s t : State} (h : step s = .next t) (hm : s.hostMoves = false) :
    ∃ w, s.pending = some w ∧ s.nextAgent = .block ∧ runCommand w s.passTurn = .next t := by
  rcases step_turns h with ⟨hf, _⟩ | ⟨_, ht⟩
  · simp [hm] at hf
  · exact ht

/-- The reset event (R220), served. -/
theorem serveHost_reset {s : State} {es : List HostEvent} (hi : s.inbox = .reset :: es) :
    serveHost s = .next (s.setInbox es).resetBlock := by
  simp [serveHost, hi]

/-- A step that is the reset event (R220). -/
theorem step_reset {s t : State} (h : step s = .next t) (hr : s.resetNext = true) :
    ∃ u : State, u.params = s.params ∧ t = u.resetBlock := by
  have hm : s.hostMoves = true := by
    simp only [State.resetNext, Bool.and_eq_true] at hr
    exact hr.1
  obtain ⟨es, hi⟩ := List.head?_eq_some_iff.mp ((State.resetNext_of_hostMoves hm).mp hr)
  obtain ⟨sch, ht⟩ := step_hostTurn h hm
  rw [serveHost_reset (s := { s with schedule := sch }) hi] at ht
  exact ⟨_, by rfl, (Host.Outcome.next.inj ht).symm⟩

/-- The host's turn, other than the reset event, keeps the parameters, the filter, `RESULT` and `STATUS.ERR` (R50, R57, R228). -/
theorem step_hostTurn_frame {s t : State} (h : step s = .next t) (hm : s.hostMoves = true) (hr : s.resetNext = false) :
    t.params = s.params ∧ t.result = s.result ∧ t.numBits = s.numBits ∧ t.numHash = s.numHash ∧ t.fast = s.fast ∧
    t.valid = s.valid ∧ t.err = s.err ∧ t.bits = s.bits := by
  obtain ⟨sch, ht⟩ := step_hostTurn h hm
  exact serveHost_frame (s := { s with schedule := sch }) ht (by simp [← State.resetNext_of_hostMoves hm, hr])

/-! ### What the block's turn changes -/

/-- `NO_FILTER` is raised only without a filter (R192). -/
theorem exec_noFilter {i : Instr} {s t : State} (h : exec i s = .next t) (he : t.err = .noFilter) : s.valid = false := by
  cases i with
  | hash => rcases execHash_cases h with ⟨_, rfl⟩ | ⟨_, rfl⟩ <;> simp at he
  | fmix => cases execFmix_cases h; simp at he
  | create f => rcases execCreate_cases h with ⟨_, rfl⟩ | ⟨_, _, _, rfl⟩ | ⟨_, _, _, rfl⟩ <;> simp at he
  | createCap f =>
    rcases execCreateCap_cases h with ⟨_, rfl⟩ | ⟨_, _, _, _, _, ⟨_, rfl⟩ | ⟨_, _, _, rfl⟩ | ⟨_, _, _, _, rfl⟩⟩ <;>
      simp at he
  | insert =>
    rcases execInsert_cases h with ⟨hv, _⟩ | ⟨_, _, rfl⟩ | ⟨_, _, rfl⟩
    · exact hv
    · simp at he
    · simp at he
  | query =>
    rcases execQuery_cases h with ⟨hv, _⟩ | ⟨_, _, rfl⟩ | ⟨_, _, rfl⟩
    · exact hv
    · simp at he
    · simp at he

/-- The step from s to t runs a command that completes with `OK`: it writes a result, inserts, or constructs (R84). -/
def State.completesOk (s t : State) : Prop :=
  (∃ i v, s.commandNext i ∧ (i = .hash ∨ i = .fmix ∨ i = .query) ∧ t = (s.passTurn.setResult v).complete .ok) ∨
  (∃ v, s.commandNext .insert ∧ s.valid = true ∧
    t = ((s.passTurn.setBits (insertBits s.bits s.positions).1).setResult v).complete .ok) ∨
  (∃ (i : Instr) (f : Bool) (m k : Int), s.commandNext i ∧ Instr.constructs i = true ∧
    0 < m ∧ 0 < k ∧ m ≤ s.params.mMax ∧ k ≤ kMax ∧ t = (s.passTurn.construct m k f).complete .ok)

/-- The block's turn: an error changes the code alone, or the command completes with `OK` (R197). -/
theorem step_blockTurn_cases {s t : State} (h : step s = .next t) (hm : s.hostMoves = false) :
    (∃ c, c ≠ .ok ∧ (c = .noFilter → s.valid = false) ∧ t = s.passTurn.complete c) ∨ s.completesOk t := by
  obtain ⟨w, hw, ha, hc⟩ := step_blockTurn h hm
  rcases runCommand_cases hc with ⟨i, hd, he⟩ | ⟨_, _, rfl⟩
  · have hn : s.commandNext i := ⟨w, hw, ha, hd⟩
    rcases exec_cases he with ⟨c, hne, rfl⟩ | ⟨hi, v, rfl⟩ | ⟨rfl, hv, _, rfl⟩ | ⟨f, m, k, hi, hm0, hk0, hm1, hk1, rfl⟩
    · exact .inl ⟨c, hne, fun hc => exec_noFilter (s := s.passTurn) he hc, rfl⟩
    · exact .inr (.inl ⟨i, v, hn, hi, rfl⟩)
    · exact .inr (.inr (.inl ⟨_, hn, hv, rfl⟩))
    · exact .inr (.inr (.inr ⟨i, f, m, k, hn, (constructs_iff i).mpr ⟨f, hi⟩, hm0, hk0, hm1, hk1, rfl⟩))
  · exact .inl ⟨_, by simp, by simp, rfl⟩

/-- A step that is no reset keeps `RESULT` and the filter's registers, or runs a command that completes with `OK`. -/
theorem step_changes {s t : State} (h : step s = .next t) (hr : s.resetNext = false) :
    (t.result = s.result ∧ t.numBits = s.numBits ∧ t.numHash = s.numHash ∧ t.fast = s.fast ∧ t.valid = s.valid) ∨
    s.completesOk t := by
  cases hm : s.hostMoves with
  | true =>
    obtain ⟨_, hres, hnb, hnh, hf, hv, _, _⟩ := step_hostTurn_frame h hm hr
    exact .inl ⟨hres, hnb, hnh, hf, hv⟩
  | false =>
    rcases step_blockTurn_cases h hm with ⟨c, _, _, rfl⟩ | hcmd
    · exact .inl ⟨rfl, rfl, rfl, rfl, rfl⟩
    · exact .inr hcmd

end Sys2Proof.Machine
end

section
/-! The bit array under the filter's loops (R35, R54, R166): which bits a command sets, and where they lie. -/

namespace Sys2Proof.Machine

/-- A word of the bit array after a write there, zero or not (R54). -/
theorem bitsWord_write_self (m : List (Nat × Word)) (j : Nat) (v : Word) :
    bitsWord (Memory.write unlistedBits m j v) j = v := by
  rw [bitsWord, Memory.read?_write_self]
  by_cases h0 : unlistedBits = some v
  · rw [if_pos h0]; exact Option.some.inj h0
  · rw [if_neg h0]

/-- The word written by setting a bit (R54). -/
theorem bitsWord_setBit_self (m : List (Nat × Word)) (p : Nat) :
    bitsWord (setBit m p) (p / 32) = bitsWord m (p / 32) ||| (1#32 <<< (p % 32)) :=
  bitsWord_write_self _ _ _

/-- Every other word is kept (R54). -/
theorem bitsWord_setBit_other (m : List (Nat × Word)) (p : Nat) {j : Nat} (hj : j ≠ p / 32) :
    bitsWord (setBit m p) j = bitsWord m j := by
  simp only [bitsWord, setBit, Memory.read?_write_other _ _ _ _ _ hj]

/-- Setting a bit makes it 1 and keeps every other bit (R54). -/
theorem bitAt_setBit (m : List (Nat × Word)) (p q : Nat) : bitAt (setBit m p) q = (bitAt m q || q == p) := by
  unfold bitAt
  by_cases hj : q / 32 = p / 32
  · rw [hj, bitsWord_setBit_self]
    have hp : p % 32 < 32 := Nat.mod_lt _ (by omega)
    have hpq : p % 32 = q % 32 ↔ q = p := by omega
    have hbit : (1#32 <<< (p % 32)).getLsbD (q % 32) = (q == p) := by
      rw [← BitVec.twoPow_eq, BitVec.getLsbD_twoPow, decide_eq_true hp, Bool.true_and, decide_eq_decide.mpr hpq]
      rfl
    rw [BitVec.getLsbD_or, hbit]
  · have hne : (q == p) = false := beq_false_of_ne fun he => hj (by rw [he])
    rw [bitsWord_setBit_other _ _ hj, hne, Bool.or_false]

/-- One turn of `INSERT`'s loop leaves the bit of its position 1 and keeps every other bit, whether it writes or not (R166). -/
theorem bitAt_insertBit (b : List (Nat × Word) × Bool) (p q : Nat) :
    bitAt (insertBit b p).1 q = true ↔ bitAt b.1 q = true ∨ q = p := by
  unfold insertBit
  split
  · next hp =>
    refine ⟨.inl, ?_⟩
    rintro (h | rfl)
    · exact h
    · exact hp
  · simp [bitAt_setBit]

/-- `INSERT`'s loop sets the bits of its positions and keeps every other bit (R166). -/
theorem bitAt_insertBits (m : List (Nat × Word)) (ps : List Nat) (q : Nat) :
    bitAt (insertBits m ps).1 q = true ↔ bitAt m q = true ∨ q ∈ ps := by
  have loop : ∀ b : List (Nat × Word) × Bool, bitAt (ps.foldl insertBit b).1 q = true ↔ bitAt b.1 q = true ∨ q ∈ ps := by
    induction ps with
    | nil => simp
    | cons p ps ih => intro b; rw [List.foldl_cons, ih, bitAt_insertBit, List.mem_cons, or_assoc]
  exact loop (m, false)

/-- `INSERT`'s loop keeps the canonical form of the bit array. -/
theorem insertBits_wf (m : List (Nat × Word)) (ps : List Nat) (hm : Memory.wf unlistedBits m) :
    Memory.wf unlistedBits (insertBits m ps).1 := by
  have loop : ∀ b : List (Nat × Word) × Bool, Memory.wf unlistedBits b.1 → Memory.wf unlistedBits (ps.foldl insertBit b).1 := by
    induction ps with
    | nil => exact fun _ hb => hb
    | cons p ps ih =>
      intro b hb
      refine ih _ ?_
      unfold insertBit
      split
      · exact hb
      · exact setBit_wf _ _ hb
  exact loop _ hm

/-- A position lies in the filter (R164). -/
theorem positions_lt {key : List Byte} {m k : Nat} {fast : Bool} (hm : 1 ≤ m) {p : Nat} (hp : p ∈ positions key m k fast) :
    p < m := by
  obtain ⟨w, _, rfl⟩ := List.mem_map.mp hp
  exact Nat.mod_lt _ hm

/-- In canonical form, the bound on the listed words is a bound on the bits that are 1. -/
theorem State.bitsLegal_iff (s : State) :
    s.bitsLegal ↔ Memory.wf unlistedBits s.bits ∧ ∀ p, bitAt s.bits p = true → p < unsigned s.numBits := by
  refine and_congr_right fun hwf => ⟨fun h p hp => ?_, fun h e he i hi hbit => h _ ?_⟩
  · unfold bitAt bitsWord at hp
    split at hp
    · next w hw =>
      have := h _ (Memory.mem_of_read? hw) (p % 32) (Nat.mod_lt _ (by omega)) hp
      omega
    · simp at hp
  · have hdiv : (32 * e.1 + i) / 32 = e.1 := by omega
    have hmod : (32 * e.1 + i) % 32 = i := by omega
    simp only [bitAt, bitsWord, hdiv, hmod, Memory.read?_of_mem hwf.1 he, hbit]

end Sys2Proof.Machine
end

section
/-! The invariant of the state (R28, R29, R31, R34, R35, R192) through every event and every command. -/

namespace Sys2Proof.Machine

/-- A state with legal parameters, no filter, no key byte and no bit listed meets the invariant. -/
theorem State.Inv_of_cleared {s : State} (hp : s.params.legal) (hk : s.keybuf = []) (hb : s.bits = []) (hv : s.valid = false)
    (hm : s.numBits = 0) (hn : s.numHash = 0) (hf : s.fast = false) : s.Inv := by
  refine ⟨hp, ⟨hk ▸ Memory.wf_nil_key, by simp [hk]⟩, ⟨by simp [hv], fun _ => ⟨hm, hn, hf⟩⟩,
    ⟨hb ▸ Memory.wf_nil_bits, by simp [hb]⟩, fun _ => hv⟩

/-- A filter's number of bits fits a signed word (R8, R28). -/
theorem le_word_of_le_mMax {p : Params} (hp : p.legal) {m : Int} (hm : m ≤ p.mMax) : m ≤ 2147483647 := by
  obtain ⟨_, hmax, _⟩ := hp
  omega

/-- The reset event makes the invariant hold, from any state with legal parameters (R220). -/
theorem State.resetBlock_Inv {s : State} (hp : s.params.legal) : s.resetBlock.Inv :=
  State.Inv_of_cleared hp rfl rfl rfl rfl rfl rfl

/-- Settles O35: nothing is listed and there is no filter; the parameters of log entry 4 are in the ranges of R8. -/
theorem resetMeetsInvariant : Obligations.ResetMeetsInvariant :=
  State.Inv_of_cleared (by decide) rfl rfl rfl rfl rfl rfl

/-- A word the host can write stands below `KEY_MAX` with all its four bytes, since `KEY_MAX` is a multiple of 4 (R8, R52). -/
theorem placeOf_keyWord_lt {p : Params} (hp : p.legal) {off w : Nat} (h : placeOf p off = .ok (.keyWord w)) :
    4 * w + 3 < p.keyMax := by
  obtain ⟨_, _, hmod, _, _⟩ := hp
  unfold placeOf at h
  split at h
  · cases h
  · split at h
    · simp only [Except.ok.injEq] at h
      revert h; unfold lowPlace
      split <;> simp
    · split at h
      · have hw : (off - 0x100) / 4 = w := by simpa using h
        omega
      · cases h

/-- A byte write below `KEY_MAX` keeps the key buffer legal (R34, R52). -/
theorem State.setKeyByte_keybufLegal {s : State} {i : Nat} (b : Byte) (hi : i < s.params.keyMax) (h : s.keybufLegal) :
    (s.setKeyByte i b).keybufLegal := by
  obtain ⟨hwf, hlt⟩ := h
  refine ⟨State.setKeyByte_wf s i b hwf, fun e he => ?_⟩
  rcases Memory.mem_write unlistedKey s.keybuf i b e he with rfl | he
  · exact hi
  · exact hlt e he

/-- The host's write of a word in the buffer keeps it legal (R52). -/
theorem State.setKeyWord_keybufLegal {s : State} {w : Nat} (v : Word) (hw : 4 * w + 3 < s.params.keyMax) (h : s.keybufLegal) :
    (s.setKeyWord w v).keybufLegal := by
  unfold State.setKeyWord
  refine State.setKeyByte_keybufLegal _ hw ?_
  refine State.setKeyByte_keybufLegal _ (Nat.lt_of_succ_lt hw) ?_
  refine State.setKeyByte_keybufLegal _ (by simp; omega) ?_
  exact State.setKeyByte_keybufLegal _ (by omega) h

/-- A write of a place of the block, while not busy, keeps the invariant (R51, R52). -/
theorem State.writePlace_Inv {s : State} {off : Nat} {pl : Place} (v : Word) (hpl : placeOf s.params off = .ok pl) (h : s.Inv) :
    (s.writePlace v pl).Inv := by
  cases pl with
  | reg r =>
    refine State.Inv_congr ?_ ?_ ?_ ?_ ?_ ?_ ?_ ?_ h <;> cases r <;> rfl
  | reserved => exact h
  | keyWord w =>
    obtain ⟨hp, hk, hf, hb, he⟩ := h
    have hkw := State.setKeyWord_keybufLegal v (placeOf_keyWord_lt hp hpl) hk
    rw [State.setKeyWord_frame] at hkw
    rw [State.writePlace, State.setKeyWord_frame]
    exact ⟨hp, hkw, hf, hb, he⟩

/-- The host's turn keeps the invariant (R50, R93, R220, R228). -/
theorem serveHost_Inv {s t : State} (h : serveHost s = .next t) (hi : s.Inv) : t.Inv := by
  rcases serveHost_cases h with ⟨_, rfl⟩ | ⟨off, v, es, pl, _, hp, rfl⟩ | ⟨off, es, pl, _, _, rfl⟩ | ⟨es, _, rfl⟩ | ⟨es, _, rfl⟩
  · exact hi
  · split
    · exact hi
    · exact State.writePlace_Inv v hp hi
  · rw [State.readAny_frame]; exact hi
  · split <;> exact hi
  · obtain ⟨hp, _⟩ := hi
    exact State.resetBlock_Inv hp

/-- The completion of a command keeps the invariant, unless it leaves `NO_FILTER` beside a filter (R192). -/
theorem State.complete_Inv {s : State} {c : Code} (hc : c = .noFilter → s.valid = false) (h : s.Inv) : (s.complete c).Inv := by
  obtain ⟨hp, hk, hf, hb, _⟩ := h
  exact ⟨hp, hk, hf, hb, hc⟩

/-- An insertion into the filter that stands keeps the invariant: it sets only positions below `NUM_BITS` (R164, R166). -/
theorem State.insert_Inv {s : State} (hv : s.valid = true) (h : s.Inv) : (s.setBits (insertBits s.bits s.positions).1).Inv := by
  obtain ⟨hp, hk, hf, hb, he⟩ := h
  obtain ⟨hwf, hlt⟩ := s.bitsLegal_iff.mp hb
  refine ⟨hp, hk, hf, (State.bitsLegal_iff _).mpr ⟨insertBits_wf _ _ hwf, fun q hq => ?_⟩, he⟩
  rcases (bitAt_insertBits _ _ q).mp hq with hq | hq
  · exact hlt q hq
  · obtain ⟨hm, _⟩ := hf.1 hv
    exact positions_lt hm hq

/-- A construction with legal numbers, completed, keeps the invariant (R142, R147). -/
theorem State.construct_complete_Inv {s : State} {m k : Int} (f : Bool) (hm0 : 0 < m) (hk0 : 0 < k) (hm1 : m ≤ s.params.mMax)
    (hk1 : k ≤ kMax) (h : s.Inv) : ((s.construct m k f).complete .ok).Inv := by
  obtain ⟨hp, hkey, _, _, _⟩ := h
  have hmw := le_word_of_le_mMax hp hm1
  unfold kMax at hk1
  refine ⟨hp, hkey, ⟨fun _ => ?_, by simp⟩, ⟨Memory.wf_nil_bits, by simp⟩, by simp⟩
  simp only [unsigned, State.complete_numBits, State.complete_numHash, State.complete_params, State.construct_numBits,
    State.construct_numHash, State.construct_params, toNat_ofInt_word hm0 hmw, toNat_ofInt_word hk0 hk1]
  omega

/-- The parameters are no state of the block: no step changes them (R8, R20). -/
theorem step_params {s t : State} (h : step s = .next t) : t.params = s.params := by
  cases hr : s.resetNext with
  | true => obtain ⟨u, hu, rfl⟩ := step_reset h hr; exact hu
  | false =>
    cases hm : s.hostMoves with
    | true => exact (step_hostTurn_frame h hm hr).1
    | false =>
      rcases step_blockTurn_cases h hm with ⟨_, _, _, rfl⟩ | ⟨_, _, _, _, rfl⟩ | ⟨_, _, _, rfl⟩ |
        ⟨_, _, _, _, _, _, _, _, _, _, rfl⟩ <;> rfl

/-- The block's turn keeps the invariant. -/
theorem step_blockTurn_Inv {s t : State} (h : step s = .next t) (hm : s.hostMoves = false) (hi : s.Inv) : t.Inv := by
  rcases step_blockTurn_cases h hm with ⟨c, _, hc, rfl⟩ | ⟨_, v, _, _, rfl⟩ | ⟨v, _, hv, rfl⟩ |
    ⟨_, f, m, k, _, _, hm0, hk0, hm1, hk1, rfl⟩
  · exact State.complete_Inv hc hi
  · exact State.complete_Inv (by simp) hi
  · exact State.complete_Inv (by simp) (State.insert_Inv hv hi)
  · exact State.construct_complete_Inv f hm0 hk0 hm1 hk1 hi

/-- Settles O36: the host's turn keeps the invariant event by event, the block's turn by what the command changes. -/
theorem stepKeepsInvariant : Obligations.StepKeepsInvariant := by
  intro s t hi h
  refine ⟨?_, step_params h⟩
  rcases step_turns h with ⟨_, sch, ht⟩ | ⟨hm, _⟩
  · exact serveHost_Inv ht hi
  · exact step_blockTurn_Inv h hm hi

end Sys2Proof.Machine
end

section
/-! The status register (R23, R25, R27): what sets and clears `BUSY` and `ERR`, and the word the host reads. -/

namespace Sys2Proof.Machine

/-! ### `STATUS.ERR` and `STATUS.BUSY` -/

/-- No command reads `STATUS.ERR` or `STATUS.BUSY`: each overwrites both when it completes (R23, R25). -/
theorem exec_ignores_err_and_pending (i : Instr) (s : State) (c : Code) (p : Option Word) :
    exec i { s with err := c, pending := p } = exec i s := by
  cases i <;> rfl

/-- The same of the run of a word, decodable or not (R25, R89). -/
theorem runCommand_ignores_err (w : Word) (s : State) (c : Code) : runCommand w { s with err := c } = runCommand w s := by
  unfold runCommand
  split
  · exact exec_ignores_err_and_pending _ s c s.pending
  · rfl

/-- Settles O26: a command overwrites the code unread, and the host's turn keeps it. -/
theorem errIsTheLastCompletionCode : Obligations.ErrIsTheLastCompletionCode := by
  refine ⟨fun i s c => exec_ignores_err_and_pending i s c s.pending, runCommand_ignores_err, fun s t h hb hr => ?_, rfl⟩
  obtain ⟨_, _, _, _, _, _, herr, _⟩ := step_hostTurn_frame h (s.hostMoves_iff.mpr hb) hr
  exact herr

/-- Every command ends with nothing pending (R80, R227). -/
theorem runCommand_pending {w : Word} {s t : State} (h : runCommand w s = .next t) : t.pending = none := by
  rcases runCommand_cases h with ⟨i, _, he⟩ | ⟨_, _, rfl⟩
  · rcases exec_cases he with ⟨_, _, rfl⟩ | ⟨_, _, rfl⟩ | ⟨_, _, _, rfl⟩ | ⟨_, _, _, _, _, _, _, _, rfl⟩ <;> rfl
  · rfl

@[simp] theorem State.setInbox_busy (s : State) (es : List HostEvent) : (s.setInbox es).busy = s.busy := rfl
@[simp] theorem State.setReadData_busy (s : State) (v : Word) : (s.setReadData v).busy = s.busy := rfl
@[simp] theorem State.passTurn_busy (s : State) : s.passTurn.busy = s.busy := rfl
@[simp] theorem State.resetBlock_busy (s : State) : s.resetBlock.busy = false := rfl

/-- A host's read leaves the pending command (R57). -/
@[simp] theorem State.readAny_busy (s : State) (pl : Place) : (s.readAny pl).busy = s.busy := by
  rw [State.readAny_frame]; rfl

/-- A host's write makes a command pending only at `CMD`'s own place (R51, R80). -/
theorem State.writePlace_busy (s : State) (v : Word) {pl : Place} (h : pl ≠ .reg .cmd) :
    (s.writePlace v pl).busy = s.busy := by
  cases pl with
  | reg r =>
    cases r
    case cmd => exact absurd rfl h
    all_goals rfl
  | reserved => rfl
  | keyWord w => rfl

/-- The host's turn starts a command only by a write to `CMD` (R23). -/
theorem serveHost_sets_busy {s t : State} (h : serveHost s = .next t) (hs : s.busy = false) (ht : t.busy = true) :
    ∃ v es, s.inbox = .write 0x000 v :: es := by
  rcases serveHost_cases h with ⟨_, rfl⟩ | ⟨off, v, es, pl, hi, hp, rfl⟩ | ⟨_, es, pl, _, _, rfl⟩ | ⟨_, _, rfl⟩ | ⟨_, _, rfl⟩
  · simp [hs] at ht
  · by_cases hpl : pl = .reg .cmd
    · subst hpl
      obtain rfl : off = 0x000 := placeOf_reg hp
      exact ⟨v, es, hi⟩
    · simp [hs, State.writePlace_busy _ v hpl] at ht
  · simp [hs] at ht
  · simp [hs] at ht
  · simp at ht

/-- While a command is pending the host's turn ends it only by the reset event (R23, R220, R228). -/
theorem serveHost_clears_busy {s t : State} (h : serveHost s = .next t) (hs : s.busy = true) :
    t.busy = false ↔ s.inbox.head? = some .reset := by
  rcases serveHost_cases h with ⟨hi, rfl⟩ | ⟨_, _, es, _, hi, _, rfl⟩ | ⟨_, es, pl, hi, _, rfl⟩ | ⟨_, hi, rfl⟩ | ⟨es, hi, rfl⟩
  · simp [hi, hs]
  · simp [hi, hs]
  · simp [hi, hs]
  · simp [hi, hs]
  · simp [hi]

/-- A write to a register's own offset, while not busy, writes that register (R51). -/
theorem step_write_reg {s : State} {r : RegName} {v : Word} {es : List HostEvent} (hb : s.busy = false)
    (hi : s.inbox = .write (regOffset r) v :: es) : step s = .next ((s.setInbox es).writeReg v r) := by
  simp [step_idle hb, serveHost, hi, hostWrite, hb, State.writePlace]

/-- A `WAIT` (R93): it reads `STATUS`, and stays at the head of the inbox while `BUSY` is 1. -/
theorem serveHost_wait {s : State} {es : List HostEvent} (hi : s.inbox = .wait :: es) :
    serveHost s = .next ((if s.busy then s else s.setInbox es).setReadData s.statusWord) := by
  simp [serveHost, hi]

/-- Settles O8: the two agents' turns one by one, and no command reads the pending word. -/
theorem busyFollowsCommand : Obligations.BusyFollowsCommand := by
  refine ⟨fun s t h hs ht => ?_, fun s v es hb hi => ?_, fun s es hi => ⟨fun hb => ?_, fun hb ha => ?_⟩, fun s t h hb => ?_,
    fun i s p => exec_ignores_err_and_pending i s s.err p, rfl⟩
  · exact serveHost_sets_busy (step_idle hs ▸ h) hs ht
  · exact ⟨step_write_reg (r := .cmd) hb hi, rfl⟩
  · rw [step_idle hb, serveHost_wait hi, hb]; rfl
  · rw [step_busy_host hb ha, serveHost_wait (s := s.passTurn) hi, State.passTurn_busy, hb]; rfl
  · cases hm : s.hostMoves with
    | true =>
      obtain ⟨sch, ht⟩ := step_hostTurn h hm
      have ha : s.nextAgent = .host := by simpa [hb] using s.hostMoves_iff.mp hm
      simp [serveHost_clears_busy (s := { s with schedule := sch }) ht hb, State.resetNext_of_hostMoves hm, ha]
    | false =>
      obtain ⟨w, _, ha, hc⟩ := step_blockTurn h hm
      simp [ha, State.busy, runCommand_pending hc]

/-! ### `STATUS` as a word -/

/-- `STATUS` is 0 at reset (R27, R38). -/
theorem reset_statusWord : State.reset.statusWord = 0 := by decide

/-- The fields of the word (R27). -/
theorem State.statusWord_fields (s : State) :
    s.statusWord.getLsbD 0 = s.busy ∧ s.statusWord.getLsbD 1 = s.valid ∧ s.statusWord.extractLsb' 2 2 = 0 ∧
    s.statusWord.extractLsb' 4 4 = s.err.number ∧ s.statusWord.extractLsb' 8 24 = 0 := by
  unfold State.statusWord
  cases s.err <;> cases s.valid <;> cases s.busy <;> decide

/-- Settles O33: the fields of the word, and the port at `0x004`, busy or not. -/
theorem statusLayout : Obligations.StatusLayout := by
  refine ⟨fun s => ?_, fun s v => ?_, reset_statusWord⟩
  · obtain ⟨hbusy, hvalid, hlow, herr, hhigh⟩ := s.statusWord_fields
    refine ⟨hbusy, hvalid, hlow, herr, hhigh, ?_⟩
    have hp : placeOf s.params 0x004 = .ok (.reg .status) := placeOf_regOffset s.params .status
    cases hb : s.busy <;> simp [hostRead, hp, State.readAny, hb, State.readPlace, State.readReg, State.setReadData]
  · have hp : placeOf s.params 0x004 = .ok (.reg .status) := placeOf_regOffset s.params .status
    simp [hostWrite, hp, State.writePlace, State.writeReg]

/-- Settles O34: the twelve words of a code and `VALID`, less the one the invariant rules out. -/
theorem statusValuesReadable : Obligations.StatusValuesReadable := by
  intro s hi hb
  obtain ⟨_, _, _, _, hno⟩ := hi
  unfold State.statusWord
  rw [hb]
  cases he : s.err <;> cases hv : s.valid
  case noFilter.true => simp [hno he] at hv
  all_goals decide

/-- Settles O27: the fields of `State.reset`; an unlisted byte is the free value of reset 0. -/
theorem resetRegisters : Obligations.ResetRegisters :=
  ⟨reset_statusWord, rfl, rfl, rfl, rfl, rfl, rfl, rfl, rfl, by decide, fun _ => rfl⟩

end Sys2Proof.Machine
end

section
/-! The general registers (R21): the operand registers change by the place a host's write lands on, `RESULT` by a command. -/

namespace Sys2Proof.Machine

/-- The registers the host writes and a command only reads (R21). -/
def operandRegs : List RegName := [.arg0, .arg1, .arg2, .arg3, .keyLen]

theorem mem_operandRegs {r : RegName} : r ∈ operandRegs ↔ r = .arg0 ∨ r = .arg1 ∨ r = .arg2 ∨ r = .arg3 ∨ r = .keyLen := by
  simp [operandRegs]

/-- A command leaves the operand registers (R21, R84). -/
theorem runCommand_readReg {w : Word} {s t : State} {r : RegName} (h : runCommand w s = .next t) (hr : r ∈ operandRegs) :
    t.readReg r = s.readReg r := by
  have hops : t.arg0 = s.arg0 ∧ t.arg1 = s.arg1 ∧ t.arg2 = s.arg2 ∧ t.arg3 = s.arg3 ∧ t.keyLen = s.keyLen := by
    rcases runCommand_cases h with ⟨i, _, he⟩ | ⟨_, _, rfl⟩
    · rcases exec_cases he with ⟨_, _, rfl⟩ | ⟨_, _, rfl⟩ | ⟨_, _, _, rfl⟩ | ⟨_, _, _, _, _, _, _, _, rfl⟩ <;> simp
    · simp
  obtain ⟨h0, h1, h2, h3, hk⟩ := hops
  rcases mem_operandRegs.mp hr with rfl | rfl | rfl | rfl | rfl
  exacts [h0, h1, h2, h3, hk]

/-- A write of an operand register is read back there and nowhere else (R51). -/
theorem State.readReg_writeReg_operand (s : State) (v : Word) {r : RegName} (hr : r ∈ operandRegs) (q : RegName) :
    (s.writeReg v r).readReg q = if q = r then v else s.readReg q := by
  rcases mem_operandRegs.mp hr with rfl | rfl | rfl | rfl | rfl <;> cases q <;> rfl

/-- A write of any register changes an operand register only if it is that one (R51). -/
theorem State.operand_readReg_writeReg (s : State) (v : Word) {r : RegName} (hr : r ∈ operandRegs) (q : RegName) :
    (s.writeReg v q).readReg r = if q = r then v else s.readReg r := by
  rcases mem_operandRegs.mp hr with rfl | rfl | rfl | rfl | rfl <;> cases q <;> rfl

/-- A write of an operand register changes nothing but the five of them (R57). -/
theorem State.writeReg_operand_frame (s : State) (v : Word) {r : RegName} (hr : r ∈ operandRegs) :
    s.writeReg v r =
      { s with
        arg0 := (s.writeReg v r).arg0, arg1 := (s.writeReg v r).arg1, arg2 := (s.writeReg v r).arg2
        arg3 := (s.writeReg v r).arg3, keyLen := (s.writeReg v r).keyLen } := by
  rcases mem_operandRegs.mp hr with rfl | rfl | rfl | rfl | rfl <;> rfl

/-- A write of any place changes an operand register only if it stands there (R51, R52). -/
theorem State.operand_readReg_writePlace (s : State) (v : Word) {r : RegName} (hr : r ∈ operandRegs) (pl : Place) :
    (s.writePlace v pl).readReg r = if pl = .reg r then v else s.readReg r := by
  cases pl with
  | reg q => simp [State.writePlace, State.operand_readReg_writeReg s v hr q]
  | reserved => rfl
  | keyWord w =>
    rw [State.writePlace, State.setKeyWord_frame]
    rfl

/-- The host's turn, other than the reset event, changes an operand register only by a write to its own offset, while not
busy (R21, R228). -/
theorem serveHost_changes_operand {s t : State} {r : RegName} (h : serveHost s = .next t) (hreset : s.inbox.head? ≠ some .reset)
    (hr : r ∈ operandRegs) (hne : t.readReg r ≠ s.readReg r) :
    s.busy = false ∧ ∃ es, s.inbox = .write (regOffset r) (t.readReg r) :: es := by
  rcases serveHost_cases h with ⟨_, rfl⟩ | ⟨off, v, es, pl, hi, hp, rfl⟩ | ⟨_, es, pl, _, _, rfl⟩ | ⟨es, _, rfl⟩ | ⟨es, hi, rfl⟩
  · exact absurd rfl hne
  · cases hb : s.busy with
    | true => simp only [hb, if_true] at hne; exact absurd rfl hne
    | false =>
      simp only [hb, Bool.false_eq_true, if_false, State.operand_readReg_writePlace _ v hr] at hne ⊢
      by_cases hpl : pl = .reg r
      · subst hpl
        exact ⟨trivial, es, by rw [if_pos rfl, hi, placeOf_reg hp]⟩
      · rw [if_neg hpl] at hne; exact absurd rfl hne
  · rw [State.readAny_frame] at hne; exact absurd rfl hne
  · cases hb : s.busy <;> simp only [hb, Bool.false_eq_true, if_true, if_false] at hne <;> exact absurd rfl hne
  · simp [hi] at hreset

/-- Settles O29: the operand registers by the place a host's write lands on, `RESULT` by what a command changes. -/
theorem generalRegistersKept : Obligations.GeneralRegistersKept := by
  refine ⟨fun s t r h hreset hr hne => ?_, fun s r v es hb hr hi => ?_, fun s t h hreset hne => ?_, by decide⟩
  · cases hm : s.hostMoves with
    | true =>
      obtain ⟨sch, ht⟩ := step_hostTurn h hm
      refine serveHost_changes_operand (s := { s with schedule := sch }) ht ?_ hr hne
      simp [← State.resetNext_of_hostMoves hm, hreset]
    | false =>
      obtain ⟨w, _, _, hc⟩ := step_blockTurn h hm
      exact absurd (runCommand_readReg hc hr) hne
  · have hread := (s.setInbox es).readReg_writeReg_operand v hr
    have hframe := (s.setInbox es).writeReg_operand_frame v hr
    refine ⟨_, step_write_reg hb hi, by rw [hread, if_pos rfl], fun q hq => by rw [hread, if_neg hq]; rfl, fun j => ?_,
      fun p => ?_, hframe⟩
    · rw [hframe]; rfl
    · rw [hframe]; rfl
  · rcases step_changes h hreset with ⟨hres, _⟩ | ⟨i, v, hn, hi, rfl⟩ | ⟨v, hn, _, rfl⟩ | ⟨_, _, _, _, _, _, _, _, _, _, rfl⟩
    · exact absurd hres hne
    · exact ⟨rfl, i, hn, by rcases hi with rfl | rfl | rfl <;> simp⟩
    · exact ⟨rfl, _, hn, by simp⟩
    · exact absurd rfl hne

end Sys2Proof.Machine
end

section
/-! The filter's registers and its bits (R24, R31, R36): only a construction writes the registers, only an insertion sets a bit. -/

namespace Sys2Proof.Machine

/-- A construction that completes with `OK` has constructed (R140, R144). -/
theorem exec_construction_ok {i : Instr} {s t : State} (h : exec i s = .next t) (hc : Instr.constructs i = true)
    (hok : t.err = .ok) : ∃ f m k, t = (s.construct m k f).complete .ok := by
  rcases exec_cases h with ⟨c, hne, rfl⟩ | ⟨hi, _⟩ | ⟨hi, _⟩ | ⟨f, m, k, _, _, _, _, _, ht⟩
  · exact absurd hok hne
  · rcases hi with rfl | rfl | rfl <;> cases hc
  · subst hi; cases hc
  · exact ⟨f, m, k, ht⟩

/-- Settles O30: by what a command and a step can change; only a construction writes `VALID`. -/
theorem validFromConstructionToReset : Obligations.ValidFromConstructionToReset := by
  refine ⟨fun i s t hc h hok => ?_, fun s t h hv hreset => ?_, fun s t h hv htv => ?_, fun i s hi hv => ?_, rfl⟩
  · obtain ⟨f, m, k, rfl⟩ := exec_construction_ok h hc hok
    rfl
  · rcases step_changes h hreset with ⟨_, _, _, _, hkept⟩ | ⟨_, _, _, _, rfl⟩ | ⟨_, _, _, rfl⟩ |
      ⟨_, _, _, _, _, _, _, _, _, _, rfl⟩
    · rw [hkept, hv]
    · exact hv
    · exact hv
    · rfl
  · cases hreset : s.resetNext with
    | true => obtain ⟨u, _, rfl⟩ := step_reset h hreset; simp at htv
    | false =>
      rcases step_changes h hreset with ⟨_, _, _, _, hkept⟩ | ⟨_, _, _, _, rfl⟩ | ⟨_, _, hv', _⟩ |
        ⟨i, _, _, _, hn, hc, _, _, _, _, rfl⟩
      · simp [hkept, hv] at htv
      · simp [hv] at htv
      · simp [hv] at hv'
      · exact ⟨rfl, i, hn, hc⟩
  · rcases hi with rfl | rfl
    · simp [exec_insert, execInsert, hv, raise_eq]
    · simp [exec_query, execQuery, hv, raise_eq]

/-- Settles O31: only a construction or a reset writes the filter registers, and a construction writes M ≥ 1 and k ≥ 1. -/
theorem filterRegistersFixed : Obligations.FilterRegistersFixed := by
  refine ⟨fun s t h hend => ?_, fun s t hp h hs htv => ?_, rfl⟩
  · have hreset : s.resetNext = false := Bool.eq_false_of_not_eq_true fun hr => hend (.inl hr)
    rcases step_changes h hreset with ⟨_, hnb, hnh, hf, _⟩ | ⟨_, _, _, _, rfl⟩ | ⟨_, _, _, rfl⟩ |
      ⟨i, _, _, _, hn, hc, _, _, _, _, rfl⟩
    · exact ⟨hnb, hnh, by rw [State.modeWord, hf, State.modeWord]⟩
    · exact ⟨rfl, rfl, rfl⟩
    · exact ⟨rfl, rfl, rfl⟩
    · exact absurd (.inr ⟨i, hn, hc, rfl⟩) hend
  · cases hreset : s.resetNext with
    | true => obtain ⟨u, _, rfl⟩ := step_reset h hreset; simp at htv
    | false =>
      rcases step_changes h hreset with ⟨_, hnb, hnh, _, hkept⟩ | ⟨_, _, _, _, rfl⟩ | ⟨_, _, hv, rfl⟩ |
        ⟨_, _, m, k, _, _, hm0, hk0, hm1, hk1, rfl⟩
      · rw [hnb, hnh]; exact hs (hkept ▸ htv)
      · exact hs htv
      · exact hs hv
      · have hmw := le_word_of_le_mMax hp hm1
        simp only [State.complete_numBits, State.complete_numHash, State.construct_numBits, State.construct_numHash,
          toInt_ofInt_word hm0 hmw, toInt_ofInt_word hk0 hk1]
        omega

/-- Settles O32: by what a command changes; an insertion only adds bits, a construction lists none. -/
theorem bitsOnlyRise : Obligations.BitsOnlyRise := by
  refine ⟨fun i s t h hn p hp => ?_, fun i s t p h hs ht => ?_, fun i s t h hc hok p _ => ?_, fun s t h hm hreset p => ?_⟩
  · rcases exec_cases h with ⟨_, _, rfl⟩ | ⟨_, _, rfl⟩ | ⟨_, _, _, rfl⟩ | ⟨f, _, _, hi, _, _, _, _, rfl⟩
    · exact hp
    · exact hp
    · exact (bitAt_insertBits _ _ p).mpr (.inl hp)
    · exact absurd ⟨(constructs_iff i).mpr ⟨f, hi⟩, rfl⟩ hn
  · rcases exec_cases h with ⟨_, _, rfl⟩ | ⟨_, _, rfl⟩ | ⟨hi, _⟩ | ⟨_, _, _, _, _, _, _, _, rfl⟩
    · simp [hs] at ht
    · simp [hs] at ht
    · exact hi
    · simp at ht
  · obtain ⟨f, m, k, rfl⟩ := exec_construction_ok h hc hok
    simp
  · obtain ⟨_, _, _, _, _, _, _, hbits⟩ := step_hostTurn_frame h hm hreset
    rw [hbits]

end Sys2Proof.Machine
end

section
/-! The bit array as words (R54). -/

namespace Sys2Proof.Machine

/-- Settles O40: the word a bit is set in, the other words, and the bits. -/
theorem bitArrayInWords : Obligations.BitArrayInWords := fun m p =>
  ⟨rfl, bitsWord_setBit_self m p, fun _ => bitsWord_setBit_other m p, bitAt_setBit m p⟩

end Sys2Proof.Machine
end

section
/-! The port while no command is pending (R50 to R52, R57, R58): where an offset lands, and what a transaction there does. -/

namespace Sys2Proof.Machine

/-! ### The address map -/

/-- The offsets above the last register and below the key buffer are reserved (R51). -/
theorem placeOf_reserved (p : Params) {off : Nat} (hlo : 0x02C ≤ off) (hhi : off < 0x100) (ha : off % 4 = 0) :
    placeOf p off = .ok .reserved := by
  have hlow : lowPlace off = .reserved := by
    unfold lowPlace
    split
    case h_12 => rfl
    all_goals omega
  simp [placeOf, ha, hhi, hlow]

/-- A place below the key buffer is no word of it (R51). -/
theorem lowPlace_ne_keyWord (off w : Nat) : lowPlace off ≠ .keyWord w := by
  unfold lowPlace
  split <;> simp

/-- A word of the key buffer stands at its own offset alone (R52). -/
theorem placeOf_keyWord_offset {p : Params} {off w : Nat} (h : placeOf p off = .ok (.keyWord w)) : off = 0x100 + 4 * w := by
  unfold placeOf at h
  split at h
  · cases h
  · next ha =>
    split at h
    · exact absurd (Except.ok.inj h) (lowPlace_ne_keyWord off w)
    · next hlo =>
      split at h
      · cases h; omega
      · cases h

/-- An offset has a place exactly when it is a multiple of 4 inside the block (R50, R58). -/
theorem exists_placeOf_iff (p : Params) (off : Nat) :
    (∃ pl, placeOf p off = .ok pl) ↔ off % 4 = 0 ∧ off < 0x100 + p.keyMax := by
  unfold placeOf
  split
  · next ha => simp [ha]
  · next ha =>
    split
    · next hlo => exact ⟨fun _ => by omega, fun _ => ⟨_, rfl⟩⟩
    · split
      · next hin => exact ⟨fun _ => by omega, fun _ => ⟨_, rfl⟩⟩
      · next hout => simp [hout]

/-! ### Reads and writes -/

/-- A read while not busy returns the value of its place (R51). -/
theorem hostRead_idle {s : State} {off : Nat} {pl : Place} (hb : s.busy = false) (hp : placeOf s.params off = .ok pl) :
    hostRead off s = .next (s.setReadData (s.readPlace pl)) := by
  simp [hostRead, hp, State.readAny, hb]

/-- A write while not busy writes its place (R51). -/
theorem hostWrite_idle {s : State} {off : Nat} {pl : Place} (v : Word) (hb : s.busy = false)
    (hp : placeOf s.params off = .ok pl) : hostWrite off v s = .next (s.writePlace v pl) := by
  simp [hostWrite, hp, hb]

/-- A write is served exactly where the offset has a place, busy or not (R50, R58, R228). -/
theorem hostWrite_served_iff (s : State) (off : Nat) (v : Word) :
    (∃ t, hostWrite off v s = .next t) ↔ ∃ pl, placeOf s.params off = .ok pl := by
  refine ⟨fun ⟨t, ht⟩ => ?_, fun ⟨pl, hp⟩ => ⟨if s.busy then s else s.writePlace v pl, by simp [hostWrite, hp]⟩⟩
  obtain ⟨pl, hp, _⟩ := hostWrite_cases ht
  exact ⟨pl, hp⟩

/-- The registers that ignore the host's writes (R51). -/
theorem State.writeReg_readOnly (s : State) (v : Word) {r : RegName}
    (hr : r ∈ [RegName.status, .result, .numBits, .numHash, .mode]) : s.writeReg v r = s := by
  simp only [List.mem_cons, List.not_mem_nil, or_false] at hr
  rcases hr with rfl | rfl | rfl | rfl | rfl <;> rfl

/-- Settles O38: each offset by the place it has. -/
theorem registerSpaceAccess : Obligations.RegisterSpaceAccess := by
  intro s hb
  refine ⟨fun r => hostRead_idle hb (placeOf_regOffset _ r), rfl, fun off v hlo hhi ha => ?_, fun r v hr => ?_,
    fun off v => (hostWrite_served_iff s off v).trans (exists_placeOf_iff _ off)⟩
  · have hp := placeOf_reserved s.params hlo hhi ha
    exact ⟨hostRead_idle hb hp, hostWrite_idle v hb hp⟩
  · rw [hostWrite_idle v hb (placeOf_regOffset _ r), State.writePlace, State.writeReg_readOnly s v hr]

end Sys2Proof.Machine
end

section
/-! The key buffer (R34, R52): its words under the host's access, and what alone changes a byte. -/

namespace Sys2Proof.Machine

/-- The four lanes of a word, put together again, are the word (R52). -/
theorem packBytes_laneByte (v : Word) : packBytes (laneByte v 0) (laneByte v 1) (laneByte v 2) (laneByte v 3) = v := by
  unfold packBytes laneByte
  rw [BitVec.extractLsb'_append_extractLsb'_eq_extractLsb' (by rfl),
    BitVec.extractLsb'_append_extractLsb'_eq_extractLsb' (by rfl),
    BitVec.extractLsb'_append_extractLsb'_eq_extractLsb' (by rfl)]
  exact BitVec.extractLsb'_eq_self

/-- A lane of a word of the key buffer after a write of that word (R52). -/
theorem State.keyByte_setKeyWord_lane (s : State) (w : Nat) (v : Word) {j : Nat} (hj : j < 4) :
    (s.setKeyWord w v).keyByte (4 * w + j) = laneByte v j := by
  rw [State.keyByte_setKeyWord, if_pos (by omega), show (4 * w + j) % 4 = j by omega]

/-- A word of the key buffer reads back as it was written (R52). -/
theorem State.keyWord_setKeyWord (s : State) (w : Nat) (v : Word) : (s.setKeyWord w v).keyWord w = v := by
  have lane {j : Nat} (hj : j < 4) := s.keyByte_setKeyWord_lane w v hj
  have lane0 : (s.setKeyWord w v).keyByte (4 * w) = laneByte v 0 := lane (j := 0) (by decide)
  rw [State.keyWord, lane0, lane (j := 1) (by decide), lane (j := 2) (by decide), lane (j := 3) (by decide),
    packBytes_laneByte]

/-- A byte of the key buffer is a function of what is written there and of the number of resets (R34, U3). -/
theorem State.keyByte_congr {s t : State} (hk : t.keybuf = s.keybuf) (hr : t.resets = s.resets) (j : Nat) :
    t.keyByte j = s.keyByte j := by
  simp only [State.keyByte, hk, hr]

/-- A write of any place changes a byte of the key buffer only if it is the byte's own word (R52). -/
theorem State.keyByte_writePlace (s : State) (v : Word) (pl : Place) (j : Nat) :
    (s.writePlace v pl).keyByte j = if pl = .keyWord (j / 4) then laneByte v (j % 4) else s.keyByte j := by
  cases pl with
  | reg r => rw [if_neg (by simp)]; cases r <;> rfl
  | reserved => rfl
  | keyWord w => simp [State.writePlace, State.keyByte_setKeyWord, eq_comm]

/-- A command leaves the key buffer (R34, R84). -/
theorem runCommand_keyByte {w : Word} {s t : State} (h : runCommand w s = .next t) (j : Nat) : t.keyByte j = s.keyByte j := by
  rcases runCommand_cases h with ⟨i, _, he⟩ | ⟨_, _, rfl⟩
  · rcases exec_cases he with ⟨_, _, rfl⟩ | ⟨_, _, rfl⟩ | ⟨_, _, _, rfl⟩ | ⟨_, _, _, _, _, _, _, _, rfl⟩ <;>
      exact State.keyByte_congr rfl rfl j
  · rfl

/-- The host's turn, other than the reset event, changes a byte of the key buffer only by a write to the byte's own word,
while not busy (R34, R52, R228). -/
theorem serveHost_changes_keyByte {s t : State} {j : Nat} (h : serveHost s = .next t) (hreset : s.inbox.head? ≠ some .reset)
    (hne : t.keyByte j ≠ s.keyByte j) : s.busy = false ∧ ∃ v es, s.inbox = .write (0x100 + 4 * (j / 4)) v :: es := by
  rcases serveHost_cases h with ⟨_, rfl⟩ | ⟨off, v, es, pl, hi, hp, rfl⟩ | ⟨_, es, pl, _, _, rfl⟩ | ⟨es, _, rfl⟩ | ⟨es, hi, rfl⟩
  · exact absurd rfl hne
  · cases hb : s.busy with
    | true => simp only [hb, if_true] at hne; exact absurd rfl hne
    | false =>
      simp only [hb, Bool.false_eq_true, if_false, State.keyByte_writePlace] at hne
      by_cases hpl : pl = .keyWord (j / 4)
      · subst hpl
        exact ⟨rfl, v, es, by rw [hi, placeOf_keyWord_offset hp]⟩
      · rw [if_neg hpl] at hne; exact absurd rfl hne
  · rw [State.readAny_frame] at hne; exact absurd rfl hne
  · cases hb : s.busy <;> simp only [hb, Bool.false_eq_true, if_true, if_false] at hne <;> exact absurd rfl hne
  · simp [hi] at hreset

/-- Settles O37: the port at the word's own place, and the two agents' turns for what changes a byte. -/
theorem keyBufferWordLanes : Obligations.KeyBufferWordLanes := by
  refine ⟨fun s w hb hw => ⟨fun v => ?_, hostRead_idle hb (placeOf_keyWord hw)⟩, fun s t j h hreset hne => ?_⟩
  · refine ⟨s.setKeyWord w v, hostWrite_idle v hb (placeOf_keyWord hw), State.setKeyWord_frame s w v,
      fun j hj => s.keyByte_setKeyWord_lane w v hj, fun i hi => ?_, ?_⟩
    · rw [State.keyByte_setKeyWord, if_neg hi]
    · rw [hostRead_idle (s := s.setKeyWord w v) hb (placeOf_keyWord hw), State.readPlace, State.keyWord_setKeyWord]; rfl
  · cases hm : s.hostMoves with
    | true =>
      obtain ⟨sch, ht⟩ := step_hostTurn h hm
      refine serveHost_changes_keyByte (s := { s with schedule := sch }) ht ?_ hne
      simp [← State.resetNext_of_hostMoves hm, hreset]
    | false =>
      obtain ⟨w, _, _, hc⟩ := step_blockTurn h hm
      exact absurd (runCommand_keyByte hc j) hne

end Sys2Proof.Machine
end

section
/-! What a command learns of the key buffer (R53, R230): the key, that is the bytes below `KEY_LEN`, and nothing more. -/

namespace Sys2Proof.Machine

/-- Two branches on one condition lead on alike if each branch does. -/
theorem ite_next_imp {c : Prop} [Decidable c] {a b a' b' : Host.Outcome State Fault Refusal} {t t' : State}
    (h : (if c then a else b) = .next t) (ha : a = .next t → a' = .next t') (hb : b = .next t → b' = .next t') :
    (if c then a' else b') = .next t' := by
  split at h
  · next hc => rw [if_pos hc, ha h]
  · next hc => rw [if_neg hc, hb h]

/-- An error leaves the key buffer, whatever it holds (R197). -/
theorem raise_keybuf {c : Code} {s t : State} (kb : List Host.Cell) (h : raise c s = .next t) :
    raise c { s with keybuf := kb } = .next { t with keybuf := kb } := by
  rw [raise_next.mp h]; rfl

/-- So does a completion with `OK`. -/
theorem done_keybuf {s t : State} (kb : List Host.Cell) (h : done s = .next t) :
    done { s with keybuf := kb } = .next { t with keybuf := kb } := by
  rw [done_next.mp h]; rfl

/-- With the key the same, another content of the buffer changes nothing a command does, and stays as it is (R53). -/
theorem exec_keybuf_congr {i : Instr} {s t : State} {kb : List Host.Cell} (hkey : State.key { s with keybuf := kb } = s.key)
    (h : exec i s = .next t) : exec i { s with keybuf := kb } = .next { t with keybuf := kb } := by
  have hpos : State.positions { s with keybuf := kb } = s.positions := State.positions_congr hkey rfl rfl rfl
  cases i with
  | hash =>
    rw [exec_hash, execHash] at h ⊢
    rw [hkey]
    exact ite_next_imp h (raise_keybuf kb) (done_keybuf kb)
  | fmix => exact done_keybuf kb h
  | create f => exact ite_next_imp h (raise_keybuf kb) (ite_next_imp · (raise_keybuf kb) (done_keybuf kb))
  | createCap f =>
    exact ite_next_imp h (raise_keybuf kb) (ite_next_imp · (raise_keybuf kb)
      (ite_next_imp · (raise_keybuf kb) (ite_next_imp · (raise_keybuf kb) (done_keybuf kb))))
  | insert =>
    rw [exec_insert, execInsert] at h ⊢
    rw [hpos]
    exact ite_next_imp h (raise_keybuf kb) (ite_next_imp · (raise_keybuf kb) (done_keybuf kb))
  | query =>
    rw [exec_query, execQuery] at h ⊢
    rw [hpos]
    exact ite_next_imp h (raise_keybuf kb) (ite_next_imp · (raise_keybuf kb) (done_keybuf kb))

/-- Settles O50: a command reads the buffer through the key alone. -/
theorem keyBytesBeyondLengthIgnored : Obligations.KeyBytesBeyondLengthIgnored :=
  fun _ _ _ _ hkb h => exec_keybuf_congr (State.key_congr hkb) h

end Sys2Proof.Machine
end

section
/-! The decoder and the encoder (R81 to R83, R89): the fields of a word read from its number, and the eight words that decode. -/

namespace Sys2Proof

/-! ### The fields of a word as parts of its number (R81) -/

theorem opField_eq (w : Word) : opField w = w.toNat % 16 := by
  simp [opField, BitVec.extractLsb'_toNat]

theorem fastField_eq (w : Word) : fastField w = decide (w.toNat / 256 % 2 = 1) := by
  simp [fastField, BitVec.getLsbD, Nat.testBit_eq_decide_div_mod_eq]

theorem reservedZero_iff (w : Word) : reservedZero w = true ↔ w.toNat / 16 % 16 = 0 ∧ w.toNat / 512 = 0 := by
  have hw := w.isLt
  simp only [reservedZero, Bool.and_eq_true, beq_iff_eq, ← BitVec.toNat_inj, BitVec.extractLsb'_toNat,
    BitVec.ofNat_eq_ofNat, BitVec.toNat_ofNat, Nat.shiftRight_eq_div_pow]
  omega

/-- `OP` and `FAST` share no bit, so the word's number is their sum (R81). -/
theorem formatF_toNat {op : Word} (fast : Bool) (hop : op.toNat < 16) :
    (formatF op fast).toNat = op.toNat + 256 * fast.toNat := by
  cases fast with
  | false => simp [formatF]
  | true =>
    have h : 256 + op.toNat = 256 ||| op.toNat := Nat.two_pow_add_eq_or_of_lt (i := 8) (hop.trans (by decide)) 1
    rw [formatF, if_pos rfl, BitVec.toNat_or, Nat.or_comm, Nat.add_comm]
    exact h.symm

/-- A word without reserved bits is the format-F word of its own fields (R81). -/
theorem formatF_fields {w : Word} (h : reservedZero w = true) :
    formatF (BitVec.ofNat 32 (opField w)) (fastField w) = w := by
  obtain ⟨hmid, hhigh⟩ := (reservedZero_iff w).mp h
  have hop : (BitVec.ofNat 32 (opField w)).toNat = w.toNat % 16 := by rw [opField_eq, BitVec.toNat_ofNat]; omega
  have hfast : (fastField w).toNat = w.toNat / 256 % 2 := by
    rw [fastField_eq, Bool.toNat, Bool.cond_decide]; split <;> omega
  apply BitVec.eq_of_toNat_eq
  rw [formatF_toNat _ (by omega), hop, hfast]
  omega

/-! ### Decode and encode -/

theorem formatN_eq_command {fast : Bool} {i j : Instr} : formatN fast i = .command j ↔ fast = false ∧ i = j := by
  cases fast <;> simp [formatN]

/-- Every command is well formed: it has no operand field but `FAST`. -/
theorem Instr.wellFormed_true (i : Instr) : i.wellFormed = true := by cases i <;> rfl

/-- The word of a command decodes to it (R82, R83). -/
theorem decode_encode (i : Instr) : decode (encode i) = .command i := by
  cases i with
  | create f => cases f <;> decide
  | createCap f => cases f <;> decide
  | _ => decide

/-- A word that decodes to a command is that command's word: its reserved bits are zero, and the arm of `OP` fixes the rest. -/
theorem encode_of_decode {w : Word} {i : Instr} (h : decode w = .command i) : encode i = w := by
  unfold decode at h
  split at h
  · next hres =>
    have hw := formatF_fields hres
    split at h
    case h_7 => cases h
    case h_3 hop => cases h; rw [hop] at hw; exact hw
    case h_4 hop => cases h; rw [hop] at hw; exact hw
    all_goals
      next hop =>
      obtain ⟨hfast, rfl⟩ := formatN_eq_command.mp h
      rw [hop, hfast] at hw
      exact hw
  · cases h

/-- A word decodes exactly when it is a command's own word. -/
theorem decode_eq_command_iff {w : Word} {i : Instr} : decode w = .command i ↔ encode i = w :=
  ⟨encode_of_decode, fun h => h ▸ decode_encode i⟩

/-- Settles O1: the commands one by one, and the arms of the decoder one by one. -/
theorem decodeEncodeRoundTrip : Obligations.DecodeEncodeRoundTrip :=
  ⟨fun i _ => decode_encode i, fun _ i h => ⟨i.wellFormed_true, encode_of_decode h⟩⟩

/-! ### Which words decode, which are illegal -/

/-- A command's word, read off the table of R82. -/
theorem encode_eq_iff {w : Word} {i : Instr} : encode i = w ↔
    (w = 0x00000001#32 ∧ i = .hash) ∨ (w = 0x00000002#32 ∧ i = .fmix) ∨
    (w = 0x00000003#32 ∧ i = .create false) ∨ (w = 0x00000103#32 ∧ i = .create true) ∨
    (w = 0x00000004#32 ∧ i = .createCap false) ∨ (w = 0x00000104#32 ∧ i = .createCap true) ∨
    (w = 0x00000005#32 ∧ i = .insert) ∨ (w = 0x00000006#32 ∧ i = .query) := by
  cases i with
  | create f => cases f <;> simp [encode, formatF, eq_comm]
  | createCap f => cases f <;> simp [encode, formatF, eq_comm]
  | _ => simp [encode, eq_comm]

/-- The eight words of R83. -/
def commandWords : List Word :=
  [0x00000001#32, 0x00000002#32, 0x00000003#32, 0x00000103#32, 0x00000004#32, 0x00000104#32, 0x00000005#32, 0x00000006#32]

/-- They are the commands' own words. -/
theorem exists_encode_iff {w : Word} : (∃ i, encode i = w) ↔ w ∈ commandWords := by
  simp [commandWords, encode_eq_iff, exists_or]

/-- A word that is no command is illegal, for one reason or another (R83). -/
theorem decode_illegal_iff {w : Word} : (∃ why, decode w = .illegal why) ↔ w ∉ commandWords := by
  rw [← exists_encode_iff]
  cases hd : decode w with
  | command i => exact iff_of_false (by simp) (not_not_intro ⟨i, encode_of_decode hd⟩)
  | illegal why =>
    refine iff_of_true ⟨why, rfl⟩ ?_
    rintro ⟨i, hi⟩
    rw [decode_eq_command_iff.mpr hi] at hd
    cases hd

/-- Masking `FAST` out and putting it back is no change (R83, R97). -/
theorem formatF_maskFast (w : Word) : formatF (w &&& 0xFFFFFEFF#32) (fastField w) = w := by
  have hbit : w &&& 0x00000100#32 = if fastField w then 0x00000100#32 else 0#32 := BitVec.and_twoPow w 8
  have hsplit : w &&& 0xFFFFFEFF#32 ||| w &&& 0x00000100#32 = w := by
    rw [← BitVec.and_or_distrib_left]
    exact BitVec.and_allOnes
  rw [hbit] at hsplit
  unfold formatF
  split
  · next hf => rwa [if_pos hf] at hsplit
  · next hf => rwa [if_neg hf, BitVec.or_zero] at hsplit

/-- The word of a command selects a row of the opcode table (R83, R97). -/
theorem exists_row_of_encode (i : Instr) : ∃ r ∈ opcodeTable, encode i &&& r.mask = r.pattern := by
  cases i with
  | create f => cases f <;> decide
  | createCap f => cases f <;> decide
  | _ => decide

/-- A word that selects a row of the opcode table is the word of a command of that row (R83, R97). -/
theorem exists_encode_of_row {w : Word} {r : OpcodeRow} (hr : r ∈ opcodeTable) (hw : w &&& r.mask = r.pattern) :
    ∃ i, encode i = w := by
  have whole {p : Word} (h : w &&& 0xFFFFFFFF#32 = p) : p = w := h.symm.trans BitVec.and_allOnes
  have lessFast {p : Word} (h : w &&& 0xFFFFFEFF#32 = p) : formatF p (fastField w) = w := h ▸ formatF_maskFast w
  simp only [opcodeTable, List.mem_cons, List.not_mem_nil, or_false] at hr
  rcases hr with rfl | rfl | rfl | rfl | rfl | rfl
  · exact ⟨.hash, whole hw⟩
  · exact ⟨.fmix, whole hw⟩
  · exact ⟨.create (fastField w), lessFast hw⟩
  · exact ⟨.createCap (fastField w), lessFast hw⟩
  · exact ⟨.insert, whole hw⟩
  · exact ⟨.query, whole hw⟩

end Sys2Proof

namespace Sys2Proof.Machine

/-- An illegal word ends with its code and changes nothing else (R89, R194). -/
theorem runCommand_illegal {w : Word} {why : Illegal} (hd : decode w = .illegal why) (s : State) :
    runCommand w s = .next { s with err := .illegalCommand, pending := none } := by
  simp [runCommand, hd, raise_eq]

/-- Settles O2: a word decodes exactly when it is a command's own word, and a row of the table masks out `FAST` at most. -/
theorem exactlyEightWordsDecode : Obligations.ExactlyEightWordsDecode := by
  refine ⟨fun w i => decode_eq_command_iff.trans encode_eq_iff, fun w s hw => ?_, fun w => ⟨?_, ?_⟩⟩
  · obtain ⟨why, hd⟩ := decode_illegal_iff.mpr hw
    exact runCommand_illegal hd s
  · rintro ⟨i, hd⟩
    exact encode_of_decode hd ▸ exists_row_of_encode i
  · rintro ⟨r, hr, hw⟩
    obtain ⟨i, hi⟩ := exists_encode_of_row hr hw
    exact ⟨i, decode_eq_command_iff.mpr hi⟩

/-- Settles O3: the words that are none of the eight commands', read as numbers. -/
theorem illegalWordChangesOnlyErr : Obligations.IllegalWordChangesOnlyErr := by
  refine ⟨fun w => ?_, fun w _ s hd => runCommand_illegal hd s⟩
  simp only [decode_illegal_iff, commandWords, List.mem_cons, List.not_mem_nil, or_false, ← BitVec.toNat_inj, BitVec.toNat_ofNat]
  omega

/-- Settles O4: by evaluating the decoder on the six words. -/
theorem wordsOfEachFamilyDecode : Obligations.WordsOfEachFamilyDecode := by
  unfold Obligations.WordsOfEachFamilyDecode
  decide

/-- A command word placed as a table word is that word (R80). -/
theorem tableWord_toNat (w : Word) : tableWord 32 w.toNat = w := by
  rw [tableWord, Nat.mod_eq_of_lt w.isLt, BitVec.ofNat_toNat, BitVec.setWidth_eq]

/-- With a command pending and the turn the block's, a step runs it and uses up the turn (R229). -/
theorem step_busy_block {s : State} {w : Word} (hw : s.pending = some w) (ha : s.nextAgent = .block) :
    step s = runCommand w s.passTurn := by
  simp [step, stepAgents, hw, ha]

/-- The run of a word that decodes is its command's meaning (R80). -/
theorem runCommand_command {w : Word} {i : Instr} (hd : decode w = .command i) (s : State) : runCommand w s = exec i s := by
  simp [runCommand, hd]

/-- Settles O5: the block's turn runs the word; a placed word leaves the schedule empty, so the block moves next. -/
theorem stepRunsDecodedCommand : Obligations.StepRunsDecodedCommand := by
  refine ⟨fun s w i hw ha hd => ?_, fun s w why hw ha hd => ?_, fun s i => ?_⟩
  · rw [step_busy_block hw ha, runCommand_command hd]; rfl
  · rw [step_busy_block hw ha, runCommand_illegal hd]; rfl
  · unfold State.withFetchWord
    rw [tableWord_toNat, step_busy_block rfl rfl, runCommand_command (decode_encode i)]; rfl

end Sys2Proof.Machine
end

section
/-! What a command leaves unchanged (R84), by what it changes. -/

namespace Sys2Proof.Machine

/-- Settles O15: an error changes the code alone, and otherwise these three write `RESULT` alone. -/
theorem hashFmixQueryFrame : Obligations.HashFmixQueryFrame := by
  intro i s t hi h
  rcases exec_cases h with ⟨c, _, rfl⟩ | ⟨_, v, rfl⟩ | ⟨rfl, _⟩ | ⟨f, m, k, hc, _⟩
  · exact ⟨rfl, State.keyByte_congr rfl rfl, fun _ => rfl⟩
  · exact ⟨rfl, State.keyByte_congr rfl rfl, fun _ => rfl⟩
  · simp at hi
  · rcases hc with rfl | rfl <;> simp at hi

/-- Settles O16: a construction fails with its code alone, or writes the filter and completes with `OK`. -/
theorem constructionFrame : Obligations.ConstructionFrame := by
  intro f s t h
  obtain ⟨i, hi, he⟩ : ∃ i, Instr.constructs i = true ∧ exec i s = .next t := by
    rcases h with h | h
    · exact ⟨_, rfl, h⟩
    · exact ⟨_, rfl, h⟩
  rcases exec_cases he with ⟨c, _, rfl⟩ | ⟨hr, _⟩ | ⟨rfl, _⟩ | ⟨_, m, k, _, _, _, _, _, rfl⟩
  · exact ⟨rfl, State.keyByte_congr rfl rfl, fun _ _ => rfl⟩
  · rcases hr with rfl | rfl | rfl <;> cases hi
  · cases hi
  · exact ⟨rfl, State.keyByte_congr rfl rfl, fun hne => absurd rfl hne⟩

/-- Settles O17: an insertion sets the bits of the key's positions and no other. -/
theorem insertFrame : Obligations.InsertFrame := by
  intro s t h
  rcases execInsert_cases h with ⟨_, rfl⟩ | ⟨_, _, rfl⟩ | ⟨_, _, rfl⟩
  · exact ⟨rfl, State.keyByte_congr rfl rfl, fun _ _ => rfl⟩
  · exact ⟨rfl, State.keyByte_congr rfl rfl, fun _ _ => rfl⟩
  · refine ⟨State.setBits_setResult_complete_frame _ _ _ _, State.keyByte_congr rfl rfl, fun p hp => ?_⟩
    exact Bool.eq_iff_iff.mpr <| (bitAt_insertBits s.bits s.positions p).trans (or_iff_left hp)

end Sys2Proof.Machine
end

section
/-! What a command does not read (R84): for each meaning the parts of the state it reads. From another state in which those are
the same it ends the same way: with the same error, or with the same values written. -/

namespace Sys2Proof.Machine

section
variable {s s' t t' : State} {f : Bool}

theorem raise_next_imp {c : Code} (ht : t = s.complete c → t' = s'.complete c) (h : raise c s = .next t) :
    raise c s' = .next t' := raise_next.mpr (ht (raise_next.mp h))

theorem done_next_imp (ht : t = s.complete .ok → t' = s'.complete .ok) (h : done s = .next t) : done s' = .next t' :=
  done_next.mpr (ht (done_next.mp h))

/-- `HASH` reads the length check and the key (R120). -/
theorem execHash_reads (h : exec .hash s = .next t) (hlen : s'.keyTooLong = s.keyTooLong) (hkey : s'.key = s.key)
    (hraise : ∀ c, c ≠ .ok → t = s.complete c → t' = s'.complete c)
    (hdone : ∀ v, t = (s.setResult v).complete .ok → t' = (s'.setResult v).complete .ok) : exec .hash s' = .next t' := by
  rw [exec_hash, execHash] at h ⊢
  rw [hlen, hkey]
  exact ite_next_imp h (raise_next_imp (hraise _ (by decide))) (done_next_imp (hdone _))

/-- `FMIX` reads `ARG0` and `ARG1` (R121). -/
theorem execFmix_reads (h : exec .fmix s = .next t) (h0 : s'.arg0 = s.arg0) (h1 : s'.arg1 = s.arg1)
    (hdone : ∀ v, t = (s.setResult v).complete .ok → t' = (s'.setResult v).complete .ok) : exec .fmix s' = .next t' := by
  rw [exec_fmix, execFmix] at h ⊢
  rw [h0, h1]
  exact done_next_imp (hdone _) h

/-- `CREATE` reads `M_MAX`, `ARG0` and `ARG1` (R140). -/
theorem execCreate_reads (h : exec (.create f) s = .next t) (hp : s'.params = s.params) (h0 : s'.arg0 = s.arg0)
    (h1 : s'.arg1 = s.arg1) (hraise : ∀ c, c ≠ .ok → t = s.complete c → t' = s'.complete c)
    (hdone : ∀ m k, t = (s.construct m k f).complete .ok → t' = (s'.construct m k f).complete .ok) :
    exec (.create f) s' = .next t' := by
  rw [exec_create, execCreate, State.sizeOperand, State.hashCountOperand] at h ⊢
  rw [hp, h0, h1]
  exact ite_next_imp h (raise_next_imp (hraise _ (by decide)))
    (ite_next_imp · (raise_next_imp (hraise _ (by decide))) (done_next_imp (hdone _ _)))

/-- `CREATE_CAP` reads the parameters, `ARG0`, `ARG2` and `ARG3` (R144). -/
theorem execCreateCap_reads (h : exec (.createCap f) s = .next t) (hp : s'.params = s.params) (h0 : s'.arg0 = s.arg0)
    (h2 : s'.arg2 = s.arg2) (h3 : s'.arg3 = s.arg3) (hraise : ∀ c, c ≠ .ok → t = s.complete c → t' = s'.complete c)
    (hdone : ∀ m k, t = (s.construct m k f).complete .ok → t' = (s'.construct m k f).complete .ok) :
    exec (.createCap f) s' = .next t' := by
  rw [exec_createCap, execCreateCap, State.sizeOperand, State.probabilityOperand] at h ⊢
  rw [hp, h0, h2, h3]
  have invalid := raise_next_imp (hraise .invalidArgument (by decide))
  exact ite_next_imp h invalid (ite_next_imp · invalid (ite_next_imp · invalid
    (ite_next_imp · (raise_next_imp (hraise _ (by decide))) (done_next_imp (hdone _ _)))))

/-- `INSERT` reads `VALID`, the length check, the key's positions and the bits (R166). -/
theorem execInsert_reads (h : exec .insert s = .next t) (hv : s'.valid = s.valid) (hlen : s'.keyTooLong = s.keyTooLong)
    (hpos : s'.positions = s.positions) (hb : s'.bits = s.bits)
    (hraise : ∀ c, c ≠ .ok → t = s.complete c → t' = s'.complete c)
    (hdone : ∀ m v, t = ((s.setBits m).setResult v).complete .ok → t' = ((s'.setBits m).setResult v).complete .ok) :
    exec .insert s' = .next t' := by
  rw [exec_insert, execInsert] at h ⊢
  rw [hv, hlen, hpos, hb]
  exact ite_next_imp h (raise_next_imp (hraise _ (by decide)))
    (ite_next_imp · (raise_next_imp (hraise _ (by decide))) (done_next_imp (hdone _ _)))

/-- `QUERY` reads the same (R168). -/
theorem execQuery_reads (h : exec .query s = .next t) (hv : s'.valid = s.valid) (hlen : s'.keyTooLong = s.keyTooLong)
    (hpos : s'.positions = s.positions) (hb : s'.bits = s.bits)
    (hraise : ∀ c, c ≠ .ok → t = s.complete c → t' = s'.complete c)
    (hdone : ∀ v, t = (s.setResult v).complete .ok → t' = (s'.setResult v).complete .ok) : exec .query s' = .next t' := by
  rw [exec_query, execQuery] at h ⊢
  rw [hv, hlen, hpos, hb]
  exact ite_next_imp h (raise_next_imp (hraise _ (by decide)))
    (ite_next_imp · (raise_next_imp (hraise _ (by decide))) (done_next_imp (hdone _)))

end

/-- No command reads `RESULT`: a result written replaces it, and otherwise it stays (R21, R84). -/
theorem exec_result_unread {i : Instr} {s t : State} (r : Word) (h : exec i s = .next t) :
    exec i { s with result := r } =
      .next { t with result := if t.err = .ok ∧ Instr.constructs i = false then t.result else r } := by
  have hraise (c : Code) (hc : c ≠ .ok) (ht : t = s.complete c) :
      { t with result := if t.err = .ok ∧ Instr.constructs i = false then t.result else r } =
        State.complete { s with result := r } c := by
    subst ht
    rw [State.complete_err, if_neg fun hok => hc hok.1]
    rfl
  cases i with
  | hash => exact execHash_reads h rfl rfl hraise (by rintro _ rfl; rfl)
  | fmix => exact execFmix_reads h rfl rfl (by rintro _ rfl; rfl)
  | create f => exact execCreate_reads h rfl rfl rfl hraise (by rintro _ _ rfl; rfl)
  | createCap f => exact execCreateCap_reads h rfl rfl rfl rfl hraise (by rintro _ _ rfl; rfl)
  | insert => exact execInsert_reads h rfl rfl rfl rfl hraise (by rintro _ _ rfl; rfl)
  | query => exact execQuery_reads h rfl rfl rfl rfl hraise (by rintro _ rfl; rfl)

/-- The filter's registers and its bits, replaced. -/
def State.setFilter (s : State) (v f : Bool) (m k : Word) (b : List (Nat × Word)) : State :=
  { s with valid := v, numBits := m, numHash := k, fast := f, bits := b }

/-- A construction reads nothing of the filter that stood: with `OK` it leaves the same new one, and an error leaves the old one
(R142, R143). -/
theorem exec_construction_filter_unread {i : Instr} {s t : State} (v f : Bool) (m k : Word) (b : List (Nat × Word))
    (hi : Instr.constructs i = true) (h : exec i s = .next t) :
    exec i (s.setFilter v f m k b) = .next (if t.err = .ok then t else t.setFilter v f m k b) := by
  have hraise (c : Code) (hc : c ≠ .ok) (ht : t = s.complete c) :
      (if t.err = .ok then t else t.setFilter v f m k b) = (s.setFilter v f m k b).complete c := by
    subst ht
    rw [State.complete_err, if_neg hc]
    rfl
  obtain ⟨fast, rfl | rfl⟩ := (constructs_iff i).mp hi
  · exact execCreate_reads h rfl rfl rfl hraise (by rintro _ _ rfl; rfl)
  · exact execCreateCap_reads h rfl rfl rfl rfl hraise (by rintro _ _ rfl; rfl)

/-- Settles O51: what each command reads is none of what is replaced. -/
theorem operandsNotInTheFrameUnread : Obligations.OperandsNotInTheFrameUnread := by
  refine ⟨fun s t x y z l kb f => ⟨fun h => ?_, fun h => ?_, fun h => ?_, fun i hi h => ?_⟩,
    fun i s t r h => exec_result_unread r h, fun i s t v f m k b h => ⟨?_, fun hc hok => ?_⟩⟩
  · exact execCreate_reads h rfl rfl rfl (by rintro _ _ rfl; rfl) (by rintro _ _ rfl; rfl)
  · exact execCreateCap_reads h rfl rfl rfl rfl (by rintro _ _ rfl; rfl) (by rintro _ _ rfl; rfl)
  · exact execFmix_reads h rfl rfl (by rintro _ rfl; rfl)
  · simp only [List.mem_cons, List.not_mem_nil, or_false] at hi
    rcases hi with rfl | rfl | rfl
    · exact execHash_reads h rfl rfl (by rintro _ _ rfl; rfl) (by rintro _ rfl; rfl)
    · exact execInsert_reads h rfl rfl rfl rfl (by rintro _ _ rfl; rfl) (by rintro _ _ rfl; rfl)
    · exact execQuery_reads h rfl rfl rfl rfl (by rintro _ _ rfl; rfl) (by rintro _ rfl; rfl)
  · rintro (rfl | rfl | ⟨hc, hne⟩)
    · exact execHash_reads h rfl rfl (by rintro _ _ rfl; rfl) (by rintro _ rfl; rfl)
    · exact execFmix_reads h rfl rfl (by rintro _ rfl; rfl)
    · have hu := exec_construction_filter_unread v f m k b hc h
      rwa [if_neg hne] at hu
  · have hu := exec_construction_filter_unread v f m k b hc h
    rw [if_pos hok] at hu
    exact ⟨t, hu, rfl, fun _ _ => rfl⟩

end Sys2Proof.Machine
end

section
/-! The statements of a host program (R91 to R96): where its transactions land, and what the key statement leaves. -/

namespace Sys2Proof.Machine

/-! ### The key literal -/

theorem keyBytes_length (b : KeyLit) : (keyBytes b).length = b.length := by
  cases b <;> simp [keyBytes, KeyLit.length]

/-- A well-formed literal fits the key buffer (R94). -/
theorem keyBytes_length_le {p : Params} {b : KeyLit} (hb : b.wellFormed p = true) : (keyBytes b).length ≤ p.keyMax := by
  simp only [KeyLit.wellFormed, Bool.and_eq_true, decide_eq_true_eq] at hb
  exact keyBytes_length b ▸ hb.1

/-- The words that hold a literal lie in the key buffer, since `KEY_MAX` is a multiple of 4 (R8, R94). -/
theorem keyWords_le {p : Params} {b : KeyLit} (hp : p.legal) (hb : b.wellFormed p = true) :
    ((keyBytes b).length + 3) / 4 ≤ p.keyMax / 4 := by
  obtain ⟨_, _, hmod, _, _⟩ := hp
  have := keyBytes_length_le hb
  omega

/-- The four lanes put together are read back one by one (R52). -/
theorem laneByte_packBytes (b0 b1 b2 b3 : Byte) :
    laneByte (packBytes b0 b1 b2 b3) 0 = b0 ∧ laneByte (packBytes b0 b1 b2 b3) 1 = b1 ∧
    laneByte (packBytes b0 b1 b2 b3) 2 = b2 ∧ laneByte (packBytes b0 b1 b2 b3) 3 = b3 := by
  have skip {n : Nat} {hi : BitVec n} {lo : Byte} {k : Nat} (hk : 8 ≤ k) :
      (hi ++ lo).extractLsb' k 8 = hi.extractLsb' (k - 8) 8 := BitVec.extractLsb'_append_eq_of_le hk
  refine ⟨BitVec.extractLsb'_append_eq_right, ?_, ?_, ?_⟩
  · exact (skip (by decide)).trans BitVec.extractLsb'_append_eq_right
  · exact (skip (by decide)).trans ((skip (by decide)).trans BitVec.extractLsb'_append_eq_right)
  · exact (skip (by decide)).trans ((skip (by decide)).trans BitVec.extractLsb'_append_eq_left)

/-- Lane j of word w of a literal is its byte 4·w + j, absent bytes 0 (R94). -/
theorem laneByte_literalWord (bs : List Byte) (w : Nat) {j : Nat} (hj : j < 4) :
    laneByte (literalWord bs w) j = bs.getD (4 * w + j) 0 := by
  obtain ⟨h0, h1, h2, h3⟩ := laneByte_packBytes (bs.getD (4 * w) 0) (bs.getD (4 * w + 1) 0) (bs.getD (4 * w + 2) 0)
    (bs.getD (4 * w + 3) 0)
  match j, hj with
  | 0, _ => exact h0
  | 1, _ => exact h1
  | 2, _ => exact h2
  | 3, _ => exact h3

/-! ### The key statement, served -/

/-- The writes of the first n words of a literal (R94). -/
def keyWordWrites (bs : List Byte) (n : Nat) : List HostEvent :=
  (List.range n).map fun w => writeTo (.keybuf w) (literalWord bs w)

theorem keyWordWrites_succ (bs : List Byte) (n : Nat) :
    keyWordWrites bs (n + 1) = keyWordWrites bs n ++ [.write (0x100 + 4 * n) (literalWord bs n)] := by
  simp [keyWordWrites, List.range_succ, writeTo, locOffset]

@[simp] theorem keyWordWrites_length (bs : List Byte) (n : Nat) : (keyWordWrites bs n).length = n := by
  simp [keyWordWrites]

theorem expandKey_eq (b : KeyLit) : expandKey b = keyWordWrites (keyBytes b) (((keyBytes b).length + 3) / 4) ++
    [.write (regOffset .keyLen) (BitVec.ofNat 32 (keyBytes b).length)] := rfl

/-- A run of one step. -/
theorem run_one {s t : State} (h : step s = .next t) : Host.Core.run Sys2Proof.core 1 s = .next t := run_step h 0

/-- A write of a word of the key buffer, while not busy (R52). -/
theorem step_write_keyWord {s : State} {w : Nat} {v : Word} {es : List HostEvent} (hb : s.busy = false)
    (hw : w < s.params.keyMax / 4) (hi : s.inbox = .write (0x100 + 4 * w) v :: es) :
    step s = .next ((s.setInbox es).setKeyWord w v) := by
  rw [step_idle hb, serveHost, hi]
  exact hostWrite_idle (s := s.setInbox es) v hb (placeOf_keyWord hw)

/-- The state after the first n words of a literal are written to the key buffer (R94). -/
def State.loadWords (s : State) (bs : List Byte) : Nat → State
  | 0 => s
  | n + 1 => (s.loadWords bs n).setKeyWord n (literalWord bs n)

/-- Loading changes the key buffer alone (R52). -/
theorem State.loadWords_frame (s : State) (bs : List Byte) (n : Nat) : ∃ kb, s.loadWords bs n = { s with keybuf := kb } := by
  induction n with
  | zero => exact ⟨s.keybuf, rfl⟩
  | succ n ih =>
    obtain ⟨kb, hkb⟩ := ih
    exact ⟨_, by rw [State.loadWords, hkb, State.setKeyWord_frame]⟩

/-- The bytes loaded are the literal's (R52, R94). -/
theorem State.keyByte_loadWords (s : State) (bs : List Byte) {n j : Nat} (hj : j < 4 * n) :
    (s.loadWords bs n).keyByte j = bs.getD j 0 := by
  induction n with
  | zero => omega
  | succ n ih =>
    rw [State.loadWords, State.keyByte_setKeyWord]
    split
    · next hw => rw [laneByte_literalWord _ _ (Nat.mod_lt j (by decide)), ← hw, Nat.div_add_mod]
    · exact ih (by omega)

/-- The writes of a literal's words, served one a step, load them. -/
theorem run_keyWordWrites {s : State} (bs : List Byte) (hb : s.busy = false) {n : Nat} (hn : n ≤ s.params.keyMax / 4)
    {es : List HostEvent} (hi : s.inbox = keyWordWrites bs n ++ es) :
    Host.Core.run Sys2Proof.core n s = .next ((s.loadWords bs n).setInbox es) := by
  induction n generalizing es with
  | zero => rw [show es = s.inbox from hi.symm]; rfl
  | succ n ih =>
    rw [keyWordWrites_succ, List.append_assoc, List.singleton_append] at hi
    obtain ⟨kb, hkb⟩ := s.loadWords_frame bs n
    have hstep := step_write_keyWord (s := (s.loadWords bs n).setInbox _) (v := literalWord bs n) (es := es)
      (by rw [hkb]; exact hb) (by rw [hkb]; exact hn) rfl
    exact (run_add n 1 s _ (ih (by omega) hi)).trans (run_one hstep)

/-- The key is the list whose bytes stand at the front of the buffer and whose length is in `KEY_LEN` (R53). -/
theorem State.key_eq {s : State} {bs : List Byte} (hlen : unsigned s.keyLen = bs.length)
    (hbytes : ∀ j, j < bs.length → s.keyByte j = bs.getD j 0) : s.key = bs := by
  apply List.ext_getElem
  · rw [State.key_length, hlen]
  · intro j _ hj
    simp [State.key, hbytes j hj, hj]

/-- Settles O41: the words go to the front of the buffer one by one, then the length makes them the key. -/
theorem keyStatementLoadsKey : Obligations.KeyStatementLoadsKey := by
  intro s b es hp hb hwf hi
  have hlen := keyBytes_length_le hwf
  rw [expandKey_eq, List.append_assoc, List.singleton_append] at hi
  have hrun := run_keyWordWrites (keyBytes b) hb (keyWords_le hp hwf) hi
  obtain ⟨kb, hkb⟩ := s.loadWords_frame (keyBytes b) (((keyBytes b).length + 3) / 4)
  have hbytes {j : Nat} (hj : j < (keyBytes b).length) := s.keyByte_loadWords (keyBytes b)
    (n := ((keyBytes b).length + 3) / 4) (j := j) (by omega)
  rw [hkb] at hrun hbytes
  have hstep := step_write_reg (s := State.setInbox { s with keybuf := kb } _) (r := .keyLen)
    (v := BitVec.ofNat 32 (keyBytes b).length) (es := es) hb rfl
  refine ⟨{ s with keybuf := kb, keyLen := BitVec.ofNat 32 (keyBytes b).length, inbox := es }, ?_,
    State.key_eq ?_ fun j hj => hbytes hj, rfl⟩
  · rw [expandKey_eq, List.length_append, keyWordWrites_length]
    exact (run_add _ 1 s _ hrun).trans (run_one hstep)
  · obtain ⟨_, _, _, _, hmax⟩ := hp
    exact Nat.mod_eq_of_lt (by omega)

/-! ### What a statement expands to -/

/-- The offsets the port can carry (R50). -/
theorem offsetInBlock_iff {p : Params} {off : Nat} : offsetInBlock p off = true ↔ off % 4 = 0 ∧ off < 0x100 + p.keyMax := by
  simp [offsetInBlock]

/-- A register's offset is one of them. -/
theorem offsetInBlock_regOffset (p : Params) (r : RegName) : offsetInBlock p (regOffset r) = true := by
  have hlow : regOffset r % 4 = 0 ∧ regOffset r < 0x100 := by cases r <;> decide
  exact offsetInBlock_iff.mpr ⟨hlow.1, by omega⟩

/-- So is the offset of a word of the key buffer (R52). -/
theorem offsetInBlock_keyWord {p : Params} {w : Nat} (hw : w < p.keyMax / 4) : offsetInBlock p (0x100 + 4 * w) = true :=
  offsetInBlock_iff.mpr (by omega)

/-- A well-formed place names an offset the port can carry (R91). -/
theorem offsetInBlock_locOffset {p : Params} {l : Loc} (hl : l.wellFormed p = true) : offsetInBlock p (locOffset l) = true := by
  cases l with
  | reg r => exact offsetInBlock_regOffset p r
  | keybuf w => exact offsetInBlock_keyWord (of_decide_eq_true hl)
  | offset off => exact hl

theorem expandBare_wellFormed (p : Params) (i : Instr) : ∀ e ∈ expandBare i, e.wellFormed p = true := by
  simp [expandBare, writeTo, locOffset, HostEvent.wellFormed, offsetInBlock_regOffset]

theorem expandKey_wellFormed {p : Params} {b : KeyLit} (hp : p.legal) (hb : b.wellFormed p = true) :
    ∀ e ∈ expandKey b, e.wellFormed p = true := by
  intro e he
  rcases List.mem_append.mp he with he | he
  · obtain ⟨w, hw, rfl⟩ := List.mem_map.mp he
    exact offsetInBlock_keyWord (lt_of_lt_of_le (List.mem_range.mp hw) (keyWords_le hp hb))
  · obtain rfl := List.mem_singleton.mp he
    exact offsetInBlock_regOffset p .keyLen

/-- A well-formed statement expands to events the port can carry (R50, R91 to R95). -/
theorem expand_wellFormed {p : Params} {st : Stmt} (hp : p.legal) (hst : st.wellFormed p = true) :
    ∀ e ∈ expand st, e.wellFormed p = true := by
  have operand (r : RegName) (v : Word) : (writeTo (.reg r) v).wellFormed p = true := offsetInBlock_regOffset p r
  have withKey {b : KeyLit} {i : Instr} (hb : b.wellFormed p = true) :
      ∀ e ∈ expandKey b ++ expandBare i, e.wellFormed p = true :=
    List.forall_mem_append.mpr ⟨expandKey_wellFormed hp hb, expandBare_wellFormed p i⟩
  cases st with
  | wr l v =>
    simp only [Stmt.wellFormed, Bool.and_eq_true] at hst
    exact List.forall_mem_singleton.mpr (offsetInBlock_locOffset hst.1)
  | rd l => exact List.forall_mem_singleton.mpr (offsetInBlock_locOffset (l := l) hst)
  | wait => exact List.forall_mem_singleton.mpr rfl
  | key b => exact expandKey_wellFormed hp hst
  | bare i => exact expandBare_wellFormed p i
  | hash b => exact withKey hst
  | insert b => exact withKey hst
  | query b => exact withKey hst
  | fmix a b => exact List.forall_mem_append.mpr ⟨by simp [operand], expandBare_wellFormed p _⟩
  | create m k f => exact List.forall_mem_append.mpr ⟨by simp [operand], expandBare_wellFormed p _⟩
  | createCap n d f => exact List.forall_mem_append.mpr ⟨by simp [operand], expandBare_wellFormed p _⟩

/-- The word of a construction with an operand f (R82, R95). -/
theorem encode_fastOperand (f : Option Bool) :
    encode (.create (fastOperand f)) = (if f = some true then 0x00000103 else 0x00000003) ∧
    encode (.createCap (fastOperand f)) = (if f = some true then 0x00000104 else 0x00000004) := by
  rcases f with _ | _ | _ <;> decide

/-- Settles O42: each expansion is its definition, with the command's word read off R82. -/
theorem notationExpandsWithinThePort : Obligations.NotationExpandsWithinThePort := by
  refine ⟨fun p st e hp hst he => expand_wellFormed hp hst e he, rfl, rfl, rfl, rfl, rfl, rfl, rfl, rfl, fun _ _ => rfl,
    fun m k f => ?_, fun n d f => ?_, fun _ => ⟨rfl, rfl, rfl, rfl⟩, fun _ _ _ _ => ⟨rfl, rfl, rfl, rfl, rfl, rfl, rfl⟩,
    fun _ _ => rfl⟩
  · rw [← (encode_fastOperand f).1]; rfl
  · rw [← (encode_fastOperand f).2]; rfl

end Sys2Proof.Machine
end

section
/-! The operand P of `CREATE_CAP` (R86): its range test and the number the pattern stands for. -/

namespace Sys2Proof.Machine

/-- An accepted pattern stands for a number strictly between 0 and 1. -/
theorem binary64Value_of_inOpenUnit {p : BitVec 64} (hp : inOpenUnit p = true) :
    ∃ q, binary64Value p = some q ∧ 0 < q ∧ q < 1 := by
  obtain ⟨f, e, _, hf0, hf, he, _, q, hq, hqv⟩ := binary64Parts_spec hp
  have hlt : 1 / 2 ^ 53 ≤ 1 - (q : ℝ) := hqv ▸ one_sub_significand hf he
  have hpos : (0 : ℝ) < 1 / 2 ^ 53 := by positivity
  have h0 : (0 : ℝ) < q := by rw [hqv]; positivity
  have h1 : (q : ℝ) < 1 := by linarith
  exact ⟨q, hq, by exact_mod_cast h0, by exact_mod_cast h1⟩

/-- A pattern is its sign, its exponent and its fraction, side by side (R86). -/
theorem binary64_fields (p : BitVec 64) :
    p.toNat = (if p.getLsbD 63 then 2 ^ 63 else 0) + 2 ^ 52 * binary64Exponent p + binary64Fraction p := by
  have hp := p.isLt
  rw [binary64Sign_eq, binary64Exponent_eq, binary64Fraction_eq]
  simp only [decide_eq_true_eq]
  split <;> omega

/-- From the biased exponent 1023 on a number has magnitude at least 1 (R86). -/
theorem one_le_normal (f : Nat) {e : Nat} (he : 1023 ≤ e) :
    (1 : ℚ) ≤ ((2 ^ 52 + f : Nat) : ℚ) * 2 ^ ((e : ℤ) - 1075) := by
  have hpow : (2 : ℚ) ^ (-52 : ℤ) ≤ 2 ^ ((e : ℤ) - 1075) := zpow_le_zpow_right₀ (by norm_num) (by omega)
  have hsig : (2 : ℚ) ^ 52 ≤ ((2 ^ 52 + f : Nat) : ℚ) := by exact_mod_cast Nat.le_add_right _ _
  calc (1 : ℚ) = 2 ^ 52 * 2 ^ (-52 : ℤ) := by norm_num
    _ ≤ _ := mul_le_mul hsig hpow (by positivity) (by positivity)

/-- The fields of a pattern that stands for a number strictly between 0 and 1: no sign, an exponent below 1023, not both zero. -/
theorem fields_of_binary64Value {p : BitVec 64} {q : ℚ} (hq : binary64Value p = some q) (h0 : 0 < q) (h1 : q < 1) :
    p.getLsbD 63 = false ∧ binary64Exponent p ≤ 1022 ∧ (binary64Exponent p = 0 → 0 < binary64Fraction p) := by
  unfold binary64Value at hq
  dsimp only at hq
  generalize p.getLsbD 63 = sign at *
  generalize binary64Exponent p = e at *
  generalize binary64Fraction p = f at *
  split at hq
  · cases hq
  · next hfinite =>
    obtain rfl := Option.some.inj hq
    cases sign with
    | true =>
      refine absurd h0 (not_lt.mpr ?_)
      rw [if_pos rfl, neg_nonpos]
      split <;> positivity
    | false =>
      rw [if_neg Bool.false_ne_true] at h0 h1
      refine ⟨rfl, ?_, fun he => ?_⟩
      · by_contra hlarge
        rw [if_neg (by omega)] at h1
        exact absurd (one_le_normal f (by omega)) (not_le.mpr h1)
      · rw [if_pos he] at h0
        by_contra hzero
        obtain rfl : f = 0 := by omega
        simp at h0

/-- Settles O58: from the range by the bounds of the significand, to it by the pattern's fields. -/
theorem probabilityStrictlyBetween : Obligations.ProbabilityStrictlyBetween := by
  refine fun p => ⟨binary64Value_of_inOpenUnit, fun ⟨q, hq, h0, h1⟩ => ?_⟩
  obtain ⟨hsign, hexp, hfrac⟩ := fields_of_binary64Value hq h0 h1
  have hfields := binary64_fields p
  have hlt := binary64Fraction_eq p
  rw [hsign, if_neg Bool.false_ne_true] at hfields
  rw [inOpenUnit_iff]
  omega

end Sys2Proof.Machine
end

section
/-! Chunks and the tail word (R111, R112): their byte lanes, and the chunk loop as one pass over the message (R114, R118). -/

namespace Sys2Proof.Machine

/-! ### The byte lanes -/

/-- A chunk of a message is the word of a key literal with the same bytes (R94, R111). -/
theorem chunk_eq_literalWord (b : List Byte) (c : Nat) : chunk b c = literalWord b c := rfl

/-- A little-endian sum of bytes is its first byte and 2^8 times the sum of the others. -/
theorem littleEndian_succ (d : Nat → Byte) (n : Nat) :
    ((List.range (n + 1)).map fun j => 2 ^ (8 * j) * (d j).toNat).sum =
      (d 0).toNat + 2 ^ 8 * ((List.range n).map fun j => 2 ^ (8 * j) * (d (j + 1)).toNat).sum := by
  have hshift (j : Nat) : 2 ^ (8 * (j + 1)) * (d (j + 1)).toNat = 2 ^ 8 * (2 ^ (8 * j) * (d (j + 1)).toNat) := by ring
  rw [List.range_succ_eq_map, List.map_cons, List.sum_cons, List.map_map, ← List.sum_map_mul_left]
  simp [Function.comp_def, hshift]

/-- The digits of a little-endian sum of bytes are the bytes, and 0 beyond them. -/
theorem littleEndian_digit (d : Nat → Byte) (n i : Nat) :
    ((List.range n).map fun j => 2 ^ (8 * j) * (d j).toNat).sum / 2 ^ (8 * i) % 2 ^ 8 = if i < n then (d i).toNat else 0 := by
  induction n generalizing d i with
  | zero => simp
  | succ n ih =>
    have hd : (d 0).toNat < 2 ^ 8 := (d 0).isLt
    rw [littleEndian_succ]
    cases i with
    | zero => rw [Nat.mul_zero, Nat.pow_zero, Nat.div_one, Nat.add_mul_mod_self_left, Nat.mod_eq_of_lt hd, if_pos n.succ_pos]
    | succ i =>
      rw [Nat.mul_succ, Nat.add_comm (8 * i), Nat.pow_add, ← Nat.div_div_eq_div_mul, Nat.add_mul_div_left _ _ (by decide),
        Nat.div_eq_of_lt hd, Nat.zero_add, ih fun j => d (j + 1)]
      simp

/-- Lane j of a word is digit j of the number it is made from. -/
theorem laneByte_ofNat (n : Nat) {j : Nat} (hj : j < 4) :
    (laneByte (BitVec.ofNat 32 n) j).toNat = n / 2 ^ (8 * j) % 2 ^ 8 := by
  have hw : 2 ^ 32 = 2 ^ (8 * j) * 2 ^ (32 - 8 * j) := by rw [← Nat.pow_add]; congr 1; omega
  rw [laneByte, BitVec.extractLsb'_toNat, BitVec.toNat_ofNat, Nat.shiftRight_eq_div_pow, hw, Nat.mod_mul_right_div_self,
    Nat.mod_mod_of_dvd _ (Nat.pow_dvd_pow 2 (by omega))]

/-- Lane j of the tail word is trailing byte j, and 0 beyond the tail (R112). -/
theorem laneByte_tailWord (b : List Byte) {j : Nat} (hj : j < 4) :
    laneByte (tailWord b) j = if j < b.length % 4 then b.getD (4 * (b.length / 4) + j) 0 else 0 := by
  apply BitVec.eq_of_toNat_eq
  rw [tailWord, laneByte_ofNat _ hj, littleEndian_digit fun j => byteAt b (4 * (b.length / 4) + j)]
  split <;> rfl

/-- Settles O44: a chunk's lanes are those of four bytes put together, the tail word's the digits of a little-endian sum. -/
theorem chunkAndTailLanes : Obligations.ChunkAndTailLanes := by
  refine fun b j hj => ⟨fun c => ?_, laneByte_tailWord b hj⟩
  rw [chunk_eq_literalWord]
  exact laneByte_literalWord b c hj

/-! ### The chunk loop -/

/-- The chunks of b folded into an accumulator, in order (R114, R118): the loop of `foldChunks` from any start. -/
def foldChunksFrom (acc : Word) (b : List Byte) : Word :=
  (List.range (b.length / 4)).foldl (fun acc j => fold acc (chunk b j)) acc

/-- The hash starts at 0 (R118). -/
theorem foldChunks_eq (b : List Byte) : foldChunks b = foldChunksFrom 0 b := rfl

/-- Four bytes are one chunk, the first byte lowest (R111). -/
theorem foldChunksFrom_four (acc : Word) (b0 b1 b2 b3 : Byte) :
    foldChunksFrom acc [b0, b1, b2, b3] = fold acc (b3 ++ b2 ++ b1 ++ b0) := by
  simp [foldChunksFrom, chunk, packBytes, byteAt]

/-- The chunks of a message below the end of a front part are the front's. -/
theorem chunk_append_left {pre : List Byte} (l : List Byte) {j : Nat} (hj : 4 * j + 3 < pre.length) :
    chunk (pre ++ l) j = chunk pre j := by
  have hbyte {i : Nat} (hi : i < pre.length) : byteAt (pre ++ l) i = byteAt pre i := List.getD_append pre l 0 i hi
  unfold chunk
  rw [hbyte (by omega), hbyte (by omega), hbyte (by omega), hbyte hj]

/-- The chunks of a message after a front part of n whole chunks are those of the rest. -/
theorem chunk_append_right {pre : List Byte} (l : List Byte) {n : Nat} (hn : pre.length = 4 * n) (j : Nat) :
    chunk (pre ++ l) (n + j) = chunk l j := by
  have hbyte (i : Nat) : byteAt (pre ++ l) (4 * (n + j) + i) = byteAt l (4 * j + i) := by
    rw [byteAt, List.getD_append_right _ _ _ _ (by omega), byteAt]
    congr 1
    omega
  unfold chunk
  rw [hbyte 1, hbyte 2, hbyte 3]
  exact congrArg (packBytes · _ _ _) (hbyte 0)

/-- The loop over a front part of whole chunks and a rest is the loop over the front part, then over the rest (R118). -/
theorem foldChunksFrom_append (acc : Word) {pre : List Byte} (l : List Byte) (hpre : pre.length % 4 = 0) :
    foldChunksFrom acc (pre ++ l) = foldChunksFrom (foldChunksFrom acc pre) l := by
  obtain ⟨n, hn⟩ := Nat.dvd_of_mod_eq_zero hpre
  have hlen : (pre ++ l).length / 4 = n + l.length / 4 := by rw [List.length_append]; omega
  have hstart : (List.range n).foldl (fun a j => fold a (chunk (pre ++ l) j)) acc = foldChunksFrom acc pre := by
    rw [foldChunksFrom, hn, Nat.mul_div_cancel_left n (by decide)]
    exact List.foldl_ext _ _ _ fun a j hj => by rw [chunk_append_left l (by have := List.mem_range.mp hj; omega)]
  rw [foldChunksFrom, hlen, List.range_add, List.foldl_append, hstart, List.foldl_map]
  simp only [chunk_append_right l hn, foldChunksFrom]

/-- Settles O45: the loop split at the end of `pre` and again after the four bytes, which are one chunk. -/
theorem hashScansInOrder : Obligations.HashScansInOrder := by
  intro b0 b1 b2 b3 rest pre hpre
  calc foldChunks (pre ++ b0 :: b1 :: b2 :: b3 :: rest)
    _ = foldChunksFrom (foldChunks pre) ([b0, b1, b2, b3] ++ rest) := by
      rw [foldChunks_eq, foldChunks_eq]
      exact foldChunksFrom_append 0 _ hpre
    _ = foldChunksFrom (foldChunksFrom (foldChunks pre) [b0, b1, b2, b3]) rest := foldChunksFrom_append _ rest (by simp)
    _ = foldChunksFrom (fold (foldChunks pre) (b3 ++ b2 ++ b1 ++ b0)) rest := by rw [foldChunksFrom_four]

end Sys2Proof.Machine
end

section
/-! Finalization (R117, R119), and the meanings of `HASH` (R120) and `FMIX` (R121) in every state. -/

namespace Sys2Proof.Machine

/-! ### Finalization -/

/-- `fmix32` keeps 0 (R117): so equal operands of `finalize_mix`, and the empty key, give 0. -/
theorem fmix32_zero : fmix32 0 = 0 := by decide

/-- Equal operands give 0 (R119). -/
theorem finalizeMix_self (x : Word) : finalizeMix x x = 0 := by
  rw [finalizeMix, xor32, BitVec.xor_self]
  exact fmix32_zero

/-- A zero second operand leaves `fmix32` (R119). -/
theorem finalizeMix_zero (p : Word) : finalizeMix p 0 = fmix32 p := congrArg fmix32 BitVec.xor_zero

/-- The hash is the finalization of the accumulator with the length (R118, R119). -/
theorem murmur3_eq_finalizeMix (b : List Byte) : murmur3 b = finalizeMix (accumulate b) (BitVec.ofNat 32 b.length) := rfl

/-- Settles O46: the two identities are the definitions, equal operands cancel, and the example is computed. -/
theorem finalizeMixIdentity : Obligations.FinalizeMixIdentity :=
  ⟨fun _ _ => rfl, fun b _ => murmur3_eq_finalizeMix b, finalizeMix_self, finalizeMix_zero, by decide⟩

/-! ### `HASH` and `FMIX` -/

/-- The hash of the empty key (R118). -/
theorem murmur3_nil : murmur3 [] = 0 := finalizeMix_self 0

/-- The hash of `abc`, a tail step alone (R115, R118). -/
theorem murmur3_abc : murmur3 [0x61, 0x62, 0x63] = 0xb3dd93fa#32 := by decide

/-- `HASH` of a key within `KEY_MAX` (R120). -/
theorem exec_hash_of_fits {s : State} (hlen : unsigned s.keyLen ≤ s.params.keyMax) :
    exec .hash s = .next { s with result := murmur3 s.key, err := .ok, pending := none } := by
  rw [exec_hash, execHash, if_neg (by rw [State.keyTooLong_iff]; omega), done_setResult_eq]

/-- `HASH` of a key above `KEY_MAX` (R120). -/
theorem exec_hash_of_tooLong {s : State} (hlen : s.params.keyMax < unsigned s.keyLen) :
    exec .hash s = .next { s with err := .keyTooLong, pending := none } := by
  rw [exec_hash, execHash, if_pos (s.keyTooLong_iff.mpr hlen), raise_eq]

/-- `FMIX` (R121). -/
theorem exec_fmix_eq (s : State) :
    exec .fmix s = .next { s with result := finalizeMix s.arg0 s.arg1, err := .ok, pending := none } := by
  rw [exec_fmix, execFmix, done_setResult_eq]

/-- Settles O9: the two sides of the length check; the empty key and `abc` are keys that pass it. -/
theorem hashExecutes : Obligations.HashExecutes := by
  refine ⟨decode_encode .hash, fun s => ⟨exec_hash_of_fits, exec_hash_of_tooLong, fun h0 => ?_, fun h3 hmax ha hb hc => ?_⟩⟩
  · have hlen : unsigned s.keyLen = 0 := by rw [h0]; rfl
    have hkey : s.key = [] := State.key_eq hlen fun j hj => absurd hj (Nat.not_lt_zero j)
    rw [exec_hash_of_fits (by omega), hkey, murmur3_nil]
  · have hlen : unsigned s.keyLen = 3 := by rw [h3]; rfl
    have hkey : s.key = [0x61, 0x62, 0x63] := State.key_eq hlen fun j hj => by
      match j, hj with
      | 0, _ => exact ha
      | 1, _ => exact hb
      | 2, _ => exact hc
    rw [exec_hash_of_fits (by omega), hkey, murmur3_abc]

/-- Settles O10: the operands given, or equal, or those of the example. -/
theorem fmixExecutes : Obligations.FmixExecutes := by
  refine ⟨decode_encode .fmix, fun s => ⟨exec_fmix_eq s, fun heq => ?_, fun h0 h1 => ?_⟩⟩
  · rw [exec_fmix_eq, heq, finalizeMix_self]
  · have hmix : finalizeMix 0x3c2569b2#32 1 = 0x382472b3#32 := by decide
    rw [exec_fmix_eq, h0, h1, hmix]

end Sys2Proof.Machine
end

section
/-! The constructions (R140 to R144, R148): what `CREATE` and `CREATE_CAP` leave in every state, and what they read. -/

namespace Sys2Proof.Machine

/-- `STATUS` with a filter, after a command that completed with `OK` (R27). -/
theorem State.statusWord_of_valid_ok {s : State} (hv : s.valid = true) (he : s.err = .ok) (hp : s.pending = none) :
    s.statusWord = 0x00000002#32 := by
  rw [State.statusWord, State.busy, hv, he, hp]
  decide

/-! ### `CREATE` -/

section
variable {f : Bool} {s : State}

/-- `CREATE` of M ≤ 0 or k ≤ 0 (R140). -/
theorem exec_create_of_nonpos (h : s.arg0.toInt ≤ 0 ∨ s.arg1.toInt ≤ 0) :
    exec (.create f) s = .next { s with err := .invalidArgument, pending := none } := if_pos h

/-- `CREATE` past the checks of M and k as integers (R140). -/
theorem exec_create_of_pos (hm : 0 < s.arg0.toInt) (hk : 0 < s.arg1.toInt) :
    exec (.create f) s = if (s.params.mMax : Int) < s.arg0.toInt then raise .capacityExceeded s
      else done (s.construct s.arg0.toInt s.arg1.toInt f) := if_neg (not_or.mpr ⟨hm.not_ge, hk.not_ge⟩)

/-- `CREATE` of an M above `M_MAX` (R140). -/
theorem exec_create_of_large (hm : 0 < s.arg0.toInt) (hk : 0 < s.arg1.toInt) (hmax : (s.params.mMax : Int) < s.arg0.toInt) :
    exec (.create f) s = .next { s with err := .capacityExceeded, pending := none } := by
  rw [exec_create_of_pos hm hk, if_pos hmax, raise_eq]

/-- `CREATE` of an M that fits writes its two operands as they are (R140, R142). -/
theorem exec_create_of_fits (hm : 0 < s.arg0.toInt) (hk : 0 < s.arg1.toInt) (hmax : s.arg0.toInt ≤ (s.params.mMax : Int)) :
    exec (.create f) s = .next { s with
      bits := [], numBits := s.arg0, numHash := s.arg1, fast := f, valid := true, err := .ok, pending := none } := by
  rw [exec_create_of_pos hm hk, if_neg hmax.not_gt, done_construct_eq, BitVec.ofInt_toInt, BitVec.ofInt_toInt]

end

/-- Settles O11: the three outcomes by the two checks; the operands of the worked example pass both. -/
theorem createExecutes : Obligations.CreateExecutes := by
  refine ⟨decode_encode (.create false), decode_encode (.create true), fun f s =>
    ⟨exec_create_of_nonpos, exec_create_of_large, fun hm hk hmax => ?_, fun h0 h1 hmax => ?_⟩⟩
  · exact ⟨_, exec_create_of_fits hm hk hmax, fun p _ => bitAt_nil p, rfl⟩
  · have hm : s.arg0.toInt = 1 := by rw [h0]; rfl
    have hk : s.arg1.toInt = 2 := by rw [h1]; rfl
    exact ⟨_, exec_create_of_fits (by omega) (by omega) (by omega), State.statusWord_of_valid_ok rfl rfl rfl, h0, h1, rfl,
      bitAt_nil 0⟩

/-! ### `CREATE_CAP` -/

section
variable {f : Bool} {s : State} {m k : Int}

/-- `CREATE_CAP` of n ≤ 0 (R144). -/
theorem exec_createCap_of_nonpos (h : s.arg0.toInt ≤ 0) :
    exec (.createCap f) s = .next { s with err := .invalidArgument, pending := none } := if_pos h

/-- `CREATE_CAP` of a P outside the accepted patterns, whatever n (R86, R144). -/
theorem exec_createCap_of_not_inOpenUnit (h : inOpenUnit (s.arg3 ++ s.arg2) = false) :
    exec (.createCap f) s = .next { s with err := .invalidArgument, pending := none } := by
  by_cases hn : s.arg0.toInt ≤ 0
  · exact exec_createCap_of_nonpos hn
  · exact (if_neg hn).trans (if_pos h)

/-- `CREATE_CAP` of accepted operands goes on with the derived pair (R144, R147). -/
theorem exec_createCap_of_accepted (hmk : Params.sizingOf s.params s.arg0.toInt (s.arg3 ++ s.arg2) = (m, k))
    (hn : 0 < s.arg0.toInt) (hp : inOpenUnit (s.arg3 ++ s.arg2) = true) :
    exec (.createCap f) s =
      if m ≤ 0 ∨ k ≤ 0 then raise .invalidArgument s
      else if (s.params.mMax : Int) < m ∨ kMax < k then raise .capacityExceeded s
      else done (s.construct m k f) := by
  rw [exec_createCap, execCreateCap, State.sizeOperand, State.probabilityOperand, signed, hmk, if_neg hn.not_ge, hp]
  rfl

/-- `CREATE_CAP` whose derived pair fits constructs a filter of it (R142, R144). -/
theorem exec_createCap_of_fits (hmk : Params.sizingOf s.params s.arg0.toInt (s.arg3 ++ s.arg2) = (m, k))
    (hn : 0 < s.arg0.toInt) (hp : inOpenUnit (s.arg3 ++ s.arg2) = true) (hm : 0 < m) (hk : 0 < k)
    (hmax : m ≤ (s.params.mMax : Int)) (hkmax : k ≤ kMax) :
    exec (.createCap f) s = .next { s with
      bits := [], numBits := BitVec.ofInt 32 m, numHash := BitVec.ofInt 32 k, fast := f, valid := true
      err := .ok, pending := none } := by
  rw [exec_createCap_of_accepted hmk hn hp, if_neg (by omega), if_neg (by omega), done_construct_eq]

end

/-- `SIZING` of an implementation with the default (R145). -/
theorem sizingOf_reference {c : Params} (hc : c.sizing = .reference) (n : Int) (p : BitVec 64) :
    Params.sizingOf c n p = sizingRef n p := by
  rw [Params.sizingOf, hc]

/-- The pair of R144's worked example. -/
theorem sizingRef_1000 : sizingRef 1000 0x3F9EB851EB851EB8#64 = (7299, 5) := by decide +kernel

/-- Settles O12: the checks in their order, and the pair of the worked example computed. -/
theorem createCapExecutes : Obligations.CreateCapExecutes := by
  refine ⟨decode_encode (.createCap false), decode_encode (.createCap true), fun s hc hmax h0 h3 h2 => ?_,
    fun f s m k hmk => ⟨exec_createCap_of_nonpos, fun hp => ?_, fun hn hp0 hp1 => ?_⟩⟩
  · have hn : s.arg0.toInt = 1000 := by rw [h0]; rfl
    have hP : s.arg3 ++ s.arg2 = 0x3F9EB851EB851EB8#64 := by rw [h3, h2]; rfl
    have hmk : Params.sizingOf s.params s.arg0.toInt (s.arg3 ++ s.arg2) = (7299, 5) := by
      rw [sizingOf_reference hc, hn, hP, sizingRef_1000]
    refine ⟨_, exec_createCap_of_fits hmk (by omega) (by rw [hP]; rfl) (by decide) (by decide) (by omega) (by decide), ?_⟩
    exact ⟨rfl, rfl, rfl, State.statusWord_of_valid_ok rfl rfl rfl⟩
  · exact exec_createCap_of_not_inOpenUnit (Bool.eq_false_iff.mpr fun h => hp ((inOpenUnit_iff _).mp h))
  · have hp := (inOpenUnit_iff _).mpr ⟨hp0, hp1⟩
    refine ⟨fun hbad => ?_, fun hm hk hlarge => ?_, fun hm hk hm1 hk1 => ?_⟩
    · rw [exec_createCap_of_accepted hmk hn hp, if_pos hbad, raise_eq]
    · rw [exec_createCap_of_accepted hmk hn hp, if_neg (by omega), if_pos (show _ ∨ kMax < k from hlarge), raise_eq]
    · exact ⟨_, exec_createCap_of_fits hmk hn hp hm hk hm1 hk1, fun p _ => bitAt_nil p, rfl⟩

/-! ### The filter that stood -/

/-- Settles O53: a construction fails with its code alone, which `QUERY` does not read, or lists no bit. -/
theorem constructionReplacesOrKeeps : Obligations.ConstructionReplacesOrKeeps := by
  intro i s t hi h
  rcases exec_cases h with ⟨c, hc, rfl⟩ | ⟨hr, _⟩ | ⟨rfl, _⟩ | ⟨f, m, k, hf, _, _, _, _, rfl⟩
  · refine ⟨fun _ => ⟨rfl, State.keyByte_congr rfl rfl, fun _ => rfl, fun u hu => ?_⟩, fun hok => absurd hok hc⟩
    exact (exec_ignores_err_and_pending .query s c none).trans hu
  · rcases hr with rfl | rfl | rfl <;> cases hi
  · cases hi
  · exact ⟨fun hne => absurd rfl hne, fun _ => ⟨rfl, hf, fun p _ => bitAt_nil p⟩⟩

/-- Without a filter no command reads the bits: it keeps them, or a construction replaces them (R148, R221). -/
theorem exec_bits_unread {i : Instr} {s t : State} (b : List (Nat × Word)) (hv : s.valid = false) (h : exec i s = .next t) :
    exec i { s with bits := b } = .next { t with bits := if t.valid then t.bits else b } := by
  have hraise (c : Code) (ht : t = s.complete c) :
      { t with bits := if t.valid then t.bits else b } = State.complete { s with bits := b } c := by
    subst ht
    rw [State.complete_valid, hv]
    rfl
  have hresult (v : Word) (ht : t = (s.setResult v).complete .ok) :
      { t with bits := if t.valid then t.bits else b } = (State.setResult { s with bits := b } v).complete .ok := by
    subst ht
    rw [State.complete_valid, State.setResult_valid, hv]
    rfl
  cases i with
  | hash => exact execHash_reads h rfl rfl (fun c _ => hraise c) hresult
  | fmix => exact execFmix_reads h rfl rfl hresult
  | create f => exact execCreate_reads h rfl rfl rfl (fun c _ => hraise c) (by rintro _ _ rfl; rfl)
  | createCap f => exact execCreateCap_reads h rfl rfl rfl rfl (fun c _ => hraise c) (by rintro _ _ rfl; rfl)
  | insert =>
    rw [exec_insert, execInsert, if_pos hv] at h ⊢
    exact raise_next_imp (hraise _) h
  | query =>
    rw [exec_query, execQuery, if_pos hv] at h ⊢
    exact raise_next_imp (hraise _) h

/-- A command that leaves no filter leaves the bits as they were (R35). -/
theorem exec_bits_kept {i : Instr} {s t : State} (h : exec i s = .next t) (hv : t.valid = false) : t.bits = s.bits := by
  rcases exec_cases h with ⟨c, _, rfl⟩ | ⟨_, v, rfl⟩ | ⟨_, hvalid, _, rfl⟩ | ⟨f, m, k, _, _, _, _, _, rfl⟩
  · rfl
  · rfl
  · exact absurd (hvalid.symm.trans hv) (by decide)
  · cases hv

/-- Settles O52: a command without a filter keeps whatever bits there are, or a construction replaces them by the same. -/
theorem unconstructedBitsUnread : Obligations.UnconstructedBitsUnread := by
  exact fun i s t b hv h => ⟨_, exec_bits_unread b hv h, rfl, fun ht => ⟨by simp [ht], exec_bits_kept h ht⟩,
    fun ht p _ => by simp [ht]⟩

end Sys2Proof.Machine
end

section
/-! The reference sizing (R145): its pair over the reals is at least (1, 1) and unique, and the computed pair is that pair. -/

namespace Sys2Proof.Machine

/-- R145's M is at least 1 for every n ≥ 1: the logarithm of an accepted p is negative. -/
theorem one_le_sizing_ceil {n : Int} {p : BitVec 64} {q : ℚ} (hn : 1 ≤ n) (hp : inOpenUnit p = true)
    (hq : binary64Value p = some q) : 1 ≤ ⌈-(n : ℝ) * Real.log (q : ℝ) / Real.log 2 ^ 2⌉ := by
  obtain ⟨q', hq', h0, h1⟩ := binary64Value_of_inOpenUnit hp
  obtain rfl := Option.some.inj (hq'.symm.trans hq)
  have hlog : Real.log (q' : ℝ) < 0 := Real.log_neg (by exact_mod_cast h0) (by exact_mod_cast h1)
  have hnR : -(n : ℝ) < 0 := by rw [neg_lt_zero]; exact_mod_cast hn
  exact Int.one_le_ceil_iff.mpr (div_pos (mul_pos_of_neg_of_neg hnR hlog) (pow_pos (Real.log_pos one_lt_two) 2))

/-- The computed M, by the number the pattern stands for. -/
theorem sizingRef_fst_of_value {n : Int} {p : BitVec 64} {q : ℚ} (hq : binary64Value p = some q) :
    (sizingRef n p).1 = ⌈-(n : ℝ) * Real.log (q : ℝ) / Real.log 2 ^ 2⌉ := by
  rw [sizingRef_fst, hq, Option.getD_some]

/-- Settles O59: M by the sign of the logarithm; k is a maximum with 1. -/
theorem referenceSizingPositive : Obligations.ReferenceSizingPositive := by
  refine ⟨fun n p m k hn hp href => ?_, fun c n p hc hn hp => ?_⟩
  · obtain ⟨q, hq, rfl, rfl⟩ := href
    exact ⟨one_le_sizing_ceil hn hp hq, le_max_left _ _⟩
  · obtain ⟨q, hq, _⟩ := binary64Value_of_inOpenUnit hp
    rw [sizingOf_reference hc]
    exact ⟨(one_le_sizing_ceil hn hp hq).trans_eq (sizingRef_fst_of_value hq).symm, le_max_left _ _⟩

/-- The computed pair is R145's, for every n that `ARG0` can hold. -/
theorem sizingRef_isSizingRef {n : Int} {p : BitVec 64} (hn : 1 ≤ n) (hn' : n ≤ 2147483647) (hp : inOpenUnit p = true) :
    IsSizingRef n p (sizingRef n p).1 (sizingRef n p).2 := by
  obtain ⟨q, hq, _⟩ := binary64Value_of_inOpenUnit hp
  have hm := sizingRef_fst_of_value (n := n) hq
  obtain ⟨hm1, hm2⟩ := sizing_ceil_range hn hn' hp hq
  rw [← hm] at hm1 hm2
  exact ⟨q, hq, hm, sizingK_eq hn hm1 hm2⟩

/-- R145 gives one pair. -/
theorem IsSizingRef.unique {n : Int} {p : BitVec 64} {m k m' k' : Int} (h : IsSizingRef n p m k) (h' : IsSizingRef n p m' k') :
    (m, k) = (m', k') := by
  obtain ⟨q, hq, rfl, rfl⟩ := h
  obtain ⟨q', hq', rfl, rfl⟩ := h'
  obtain rfl := Option.some.inj (hq.symm.trans hq')
  rfl

/-- Settles O60: the computed pair is one of R145, and there is only one. -/
theorem computedSizingIsReference : Obligations.ComputedSizingIsReference := by
  intro c n p hc hn hn' hp
  rw [sizingOf_reference hc]
  have href := sizingRef_isSizingRef hn hn' hp
  exact ⟨href, fun m k h => href.unique h⟩

end Sys2Proof.Machine
end

section
/-! Hash-index derivation (R161 to R165): the decimal suffix of an index, the position of a hash, and the positions of a key. -/

namespace Sys2Proof.Machine

/-! ### The decimal suffix -/

/-- The ASCII character of a decimal digit (R161). -/
def asciiDigit (d : Nat) : Byte := BitVec.ofNat 8 (0x30 + d)

theorem asciiDigit_toNat {d : Nat} (hd : d < 10) : (asciiDigit d).toNat = 0x30 + d := by
  rw [asciiDigit, BitVec.toNat_ofNat]
  omega

/-- With fuel for all digits of i, the loop puts the characters of Mathlib's base-10 digits before `acc`, most significant
first. -/
theorem decDigits_eq_digits {fuel i : Nat} (hi : i < 10 ^ fuel) (h0 : i ≠ 0) (acc : List Byte) :
    decDigits fuel i acc = (Nat.digits 10 i).reverse.map asciiDigit ++ acc := by
  induction fuel generalizing i acc with
  | zero => omega
  | succ fuel ih =>
    rw [decDigits, Nat.digits_def' (by decide) (Nat.pos_of_ne_zero h0)]
    by_cases hlast : i / 10 = 0
    · simp [hlast, asciiDigit]
    · rw [if_neg hlast, ih (by omega) hlast]
      simp [asciiDigit]

/-- `dec(i)` (R161) is the list of i's base-10 digits as characters. -/
theorem dec_eq_digits {i : Nat} (hi : i ≤ 2147483646) (h0 : i ≠ 0) : dec i = (Nat.digits 10 i).reverse.map asciiDigit := by
  rw [dec, decDigits_eq_digits (by omega) h0, List.append_nil]

/-- Characters of digits, read in base 10 from the most significant, give the number of the digits. -/
theorem foldl_asciiDigits {ds : List Nat} (hds : ∀ d ∈ ds, d < 10) :
    (ds.reverse.map asciiDigit).foldl (fun n c => 10 * n + (c.toNat - 0x30)) 0 = Nat.ofDigits 10 ds := by
  rw [List.foldl_map, List.foldl_reverse, Nat.ofDigits_eq_foldr]
  refine List.foldr_ext _ _ _ fun d hd n => ?_
  rw [asciiDigit_toNat (hds d hd), Nat.add_sub_cancel_left, Nat.add_comm]
  rfl

/-- The first character of a number that is not 0 is not the character 0. -/
theorem head?_asciiDigits_ne {i : Nat} (h0 : i ≠ 0) : ((Nat.digits 10 i).reverse.map asciiDigit).head? ≠ some 0x30 := by
  have hne : Nat.digits 10 i ≠ [] := Nat.digits_ne_nil_iff_ne_zero.mpr h0
  have hlt := Nat.digits_lt_base (by decide) (List.getLast_mem hne)
  have hlast := Nat.getLast_digit_ne_zero 10 h0
  rw [List.head?_map, List.head?_reverse, List.getLast?_eq_some_getLast hne]
  intro h
  have htoNat := congrArg BitVec.toNat (Option.some.inj h)
  rw [asciiDigit_toNat hlt] at htoNat
  exact hlast (Nat.add_left_cancel (htoNat : 0x30 + _ = 0x30 + 0))

/-- Settles O47: the digits of Mathlib's `Nat.digits`, with 0 on its own. -/
theorem decimalSuffix : Obligations.DecimalSuffix := by
  refine ⟨fun i hi => ?_, by decide, by decide, by decide, by decide⟩
  obtain rfl | h0 := eq_or_ne i 0
  · decide
  · have hlt (d : Nat) (hd : d ∈ Nat.digits 10 i) : d < 10 := Nat.digits_lt_base (by decide) hd
    rw [dec_eq_digits hi h0]
    refine ⟨?_, ?_, fun c hc => ?_, ?_, fun _ => head?_asciiDigits_ne h0⟩
    · rw [List.length_map, List.length_reverse]
      exact List.length_pos_iff.mpr (Nat.digits_ne_nil_iff_ne_zero.mpr h0)
    · rw [List.length_map, List.length_reverse]
      exact (Nat.digits_length_le_iff (by decide) i).mpr (by omega)
    · obtain ⟨d, hd, rfl⟩ := List.mem_map.mp hc
      have hd10 := hlt d (List.mem_reverse.mp hd)
      rw [asciiDigit_toNat hd10]
      omega
    · rw [foldl_asciiDigits hlt, Nat.ofDigits_digits]

/-! ### Positions -/

/-- The position of a hash as arithmetic: bit 31 dropped, then the remainder (R164). -/
theorem position_eq_mod (h : Word) (m : Nat) : position h m = h.toNat % 2 ^ 31 % m := by
  have hmask : (0x7FFFFFFF#32).toNat = 2 ^ 31 - 1 := by decide
  rw [position, unsigned, and32, BitVec.toNat_and]
  exact congrArg (· % m) ((congrArg (h.toNat &&& ·) hmask).trans (Nat.and_two_pow_sub_one_eq_mod _ 31))

/-- Settles O48: by the arithmetic form of the position; the examples are computed. -/
theorem positionOfHash : Obligations.PositionOfHash := by
  refine ⟨fun h m hm => ⟨Nat.mod_lt _ hm, position_eq_mod h m⟩, fun _ => Nat.mod_one _, ?_⟩
  decide

/-- The fast chain from the hash of index j on holds the hashes of the indices after it (R163). -/
theorem fastChain_eq_map (key : List Byte) (n j : Nat) :
    fastChain (BitVec.ofNat 32 key.length) n (hFast key j) = (List.range n).map fun i => hFast key (j + i) := by
  induction n generalizing j with
  | zero => rfl
  | succ n ih =>
    have hnext : finalizeMix (hFast key j) (BitVec.ofNat 32 key.length) = hFast key (j + 1) := rfl
    rw [fastChain, hnext, ih, List.range_succ_eq_map, List.map_cons, List.map_map]
    simp only [Function.comp_def, Nat.succ_eq_add_one, Nat.add_zero, Nat.add_assoc, Nat.add_comm 1]

/-- The k hashes of a key, by index (R160, R162, R163). -/
theorem hashes_eq_map (key : List Byte) (k : Nat) (fast : Bool) :
    hashes key k fast = (List.range k).map fun i => if fast then hFast key i else hStd key i := by
  cases fast with
  | false => rfl
  | true =>
    have hchain := fastChain_eq_map key k 0
    simp only [Nat.zero_add] at hchain
    exact hchain

/-- The k positions of a key, by index (R165). -/
theorem positions_eq_map (key : List Byte) (m k : Nat) (fast : Bool) :
    positions key m k fast = (List.range k).map fun i => position (if fast then hFast key i else hStd key i) m := by
  rw [positions, hashes_eq_map, List.map_map]
  rfl

/-- A key has k positions (R165). -/
theorem positions_length (key : List Byte) (m k : Nat) (fast : Bool) : (positions key m k fast).length = k := by
  rw [positions_eq_map, List.length_map, List.length_range]

/-- The positions of `abc` for M = 64 and k = 3, standard mode (R165). -/
theorem positions_abc : positions [0x61, 0x62, 0x63] 64 3 false = [57, 5, 37] := by decide

/-- Settles O49: the list by index; the worked examples are computed. -/
theorem positionsOfAKey : Obligations.PositionsOfAKey := by
  refine ⟨fun key m k fast i hi => ⟨positions_length key m k fast, ?_⟩, positions_abc, by decide⟩
  simp [positions_eq_map, hi]

end Sys2Proof.Machine
end

section
/-! `INSERT` and `QUERY` in every state (R166, R168, R171): the two checks, the loops, and what is written. -/

namespace Sys2Proof.Machine

/-! ### The loops of `INSERT` and `QUERY` -/

/-- `INSERT`'s loop records a change exactly when the bit of one of its positions was 0 before (R166). -/
theorem insertBits_changed_iff (m : List (Nat × Word)) (ps : List Nat) :
    (insertBits m ps).2 = true ↔ ∃ p ∈ ps, bitAt m p = false := by
  have loop : ∀ b : List (Nat × Word) × Bool,
      (ps.foldl insertBit b).2 = true ↔ b.2 = true ∨ ∃ p ∈ ps, bitAt b.1 p = false := by
    induction ps with
    | nil => simp
    | cons p ps ih =>
      intro b
      rw [List.foldl_cons, ih, insertBit]
      by_cases hp : bitAt b.1 p = true
      · simp [hp]
      · simp [hp]
  exact (loop (m, false)).trans (or_iff_right Bool.false_ne_true)

/-- `INSERT`'s loop writes nothing when all its positions hold 1 (R166). -/
theorem insertBits_of_allOne {m : List (Nat × Word)} {ps : List Nat} (h : ∀ p ∈ ps, bitAt m p = true) :
    insertBits m ps = (m, false) := by
  unfold insertBits
  induction ps with
  | nil => rfl
  | cons p ps ih =>
    obtain ⟨hp, hps⟩ := List.forall_mem_cons.mp h
    rw [List.foldl_cons, insertBit, if_pos hp, ih hps]

section
variable {s : State}

/-! ### The two checks -/

/-- The length check passes (R87, R195). -/
theorem State.keyTooLong_eq_false_iff : s.keyTooLong = false ↔ unsigned s.keyLen ≤ s.params.keyMax := by
  simp [State.keyTooLong]

/-- `INSERT` and `QUERY` without a filter (R166, R168). -/
theorem exec_insert_query_of_noFilter {i : Instr} (hi : i = .insert ∨ i = .query) (hv : s.valid = false) :
    exec i s = .next { s with err := .noFilter, pending := none } := by
  rcases hi with rfl | rfl
  · exact if_pos hv
  · exact if_pos hv

/-- `INSERT` and `QUERY` with a filter and a key above `KEY_MAX` (R166, R168). -/
theorem exec_insert_query_of_tooLong {i : Instr} (hi : i = .insert ∨ i = .query) (hv : s.valid = true)
    (hlen : s.params.keyMax < unsigned s.keyLen) : exec i s = .next { s with err := .keyTooLong, pending := none } := by
  have hfilter : ¬ s.valid = false := by simp [hv]
  have hlong := s.keyTooLong_iff.mpr hlen
  rcases hi with rfl | rfl
  · exact (if_neg hfilter).trans (if_pos hlong)
  · exact (if_neg hfilter).trans (if_pos hlong)

/-! ### `INSERT` by case -/

/-- `INSERT` past its two checks runs the loop over the key's positions (R166). -/
theorem exec_insert_of_fits (hv : s.valid = true) (hlen : unsigned s.keyLen ≤ s.params.keyMax) :
    exec .insert s = .next { s with
      bits := (insertBits s.bits s.positions).1, result := boolWord (insertBits s.bits s.positions).2
      err := .ok, pending := none } := by
  rw [exec_insert, execInsert, if_neg (by simp [hv]), State.keyTooLong_eq_false_iff.mpr hlen, if_neg Bool.false_ne_true,
    done_setBits_eq]

/-- `INSERT` of a key whose positions all hold 1 changes no bit and returns 0 (R166, R167). -/
theorem exec_insert_of_allOne (hv : s.valid = true) (hlen : unsigned s.keyLen ≤ s.params.keyMax)
    (hall : ∀ p ∈ s.positions, bitAt s.bits p = true) :
    exec .insert s = .next { s with result := 0, err := .ok, pending := none } := by
  rw [exec_insert_of_fits hv hlen, insertBits_of_allOne hall]
  rfl

/-! ### `QUERY` by case -/

/-- `QUERY` past its two checks returns what the loop over the key's positions answers (R168). -/
theorem exec_query_of_fits (hv : s.valid = true) (hlen : unsigned s.keyLen ≤ s.params.keyMax) :
    exec .query s = .next { s with result := boolWord (allSet s.bits s.positions), err := .ok, pending := none } := by
  rw [exec_query, execQuery, if_neg (by simp [hv]), State.keyTooLong_eq_false_iff.mpr hlen, if_neg Bool.false_ne_true,
    done_setResult_eq]

/-- `QUERY` of a key whose positions all hold 1 (R168). -/
theorem exec_query_of_allOne (hv : s.valid = true) (hlen : unsigned s.keyLen ≤ s.params.keyMax)
    (hall : ∀ p ∈ s.positions, bitAt s.bits p = true) :
    exec .query s = .next { s with result := 1, err := .ok, pending := none } := by
  rw [exec_query_of_fits hv hlen, (allSet_iff _ _).mpr hall]
  rfl

/-- `QUERY` of a key one of whose positions holds 0 (R168). -/
theorem exec_query_of_zero (hv : s.valid = true) (hlen : unsigned s.keyLen ≤ s.params.keyMax)
    (hzero : ∃ p ∈ s.positions, bitAt s.bits p = false) :
    exec .query s = .next { s with result := 0, err := .ok, pending := none } := by
  obtain ⟨p, hp, hbit⟩ := hzero
  have hloop : allSet s.bits s.positions = false := Bool.eq_false_iff.mpr fun hall => by
    simp [(allSet_iff _ _).mp hall p hp] at hbit
  rw [exec_query_of_fits hv hlen, hloop]
  rfl

/-! ### The keys of the worked examples -/

/-- The positions of a key given by its bytes, in the filter of the worked examples (M = 64, k = 3, standard mode). -/
theorem State.positions_of_key {key : List Byte} (hm : s.numBits = 64) (hk : s.numHash = 3) (hf : s.fast = false)
    (hkey : s.key = key) : s.positions = Machine.positions key 64 3 false := by
  rw [State.positions, hm, hk, hf, hkey]
  rfl

/-- A key of at most `KEY_MAX` bytes passes the length check (R53, R87). -/
theorem State.keyLen_le_of_key {key : List Byte} (hkey : s.key = key) (hmax : key.length ≤ s.params.keyMax) :
    unsigned s.keyLen ≤ s.params.keyMax := by
  rw [← State.key_length, hkey]
  exact hmax

end

/-- One of the positions of `abd` is none of those of `abc` (R168). -/
theorem exists_position_abd :
    ∃ p ∈ positions [0x61, 0x62, 0x64] 64 3 false, ¬ (p = 57 ∨ p = 5 ∨ p = 37) := by decide

/-- Settles O13: the checks in their order, then the loop; after the example's first `INSERT` all positions hold 1. -/
theorem insertExecutes : Obligations.InsertExecutes := by
  refine ⟨decode_encode .insert, fun s =>
    ⟨exec_insert_query_of_noFilter (.inl rfl), exec_insert_query_of_tooLong (.inl rfl), fun hv hlen => ?_,
      fun hv hmax hm hk hf hkey hempty => ?_⟩⟩
  · refine ⟨_, exec_insert_of_fits hv hlen, bitAt_insertBits _ _, fun hzero => ?_, fun hall => ?_, rfl⟩
    · exact congrArg boolWord ((insertBits_changed_iff _ _).mpr hzero)
    · rw [insertBits_of_allOne hall]
      exact ⟨rfl, rfl⟩
  · have hlen := s.keyLen_le_of_key hkey hmax
    have hpos : s.positions = [57, 5, 37] := (s.positions_of_key hm hk hf hkey).trans positions_abc
    have hset := bitAt_insertBits s.bits s.positions
    have hchanged := (insertBits_changed_iff s.bits s.positions).mpr ⟨57, by simp [hpos], hempty 57⟩
    refine ⟨_, _, exec_insert_of_fits hv hlen, fun p => ?_, congrArg boolWord hchanged,
      exec_insert_of_allOne hv hlen ?_, rfl⟩
    · rw [hset, hempty, hpos]
      simp
    · exact fun p hp => (hset p).mpr (.inr hp)

/-- Settles O14: the checks in their order, then the two answers of the loop. -/
theorem queryExecutes : Obligations.QueryExecutes := by
  refine ⟨decode_encode .query, fun s =>
    ⟨exec_insert_query_of_noFilter (.inr rfl), exec_insert_query_of_tooLong (.inr rfl),
      fun hv hlen => ⟨exec_query_of_allOne hv hlen, exec_query_of_zero hv hlen⟩,
      fun hv hmax hm hk hf hbits => ⟨fun hkey => ?_, fun hkey => ?_⟩⟩⟩
  · have hpos : s.positions = [57, 5, 37] := (s.positions_of_key hm hk hf hkey).trans positions_abc
    have hall : ∀ p ∈ s.positions, bitAt s.bits p = true := by simp [hpos, hbits]
    exact ⟨_, exec_query_of_allOne hv (s.keyLen_le_of_key hkey hmax) hall, rfl⟩
  · obtain ⟨p, hp, hne⟩ := exists_position_abd
    rw [← s.positions_of_key hm hk hf hkey] at hp
    have hzero := Bool.eq_false_iff.mpr fun hbit => hne ((hbits p).mp hbit)
    exact ⟨_, exec_query_of_zero hv (s.keyLen_le_of_key hkey hmax) ⟨p, hp, hzero⟩, rfl⟩

/-- Settles O57: past the checks there is only `OK`; every position lies below `NUM_BITS`. -/
theorem insertNeverRunsOutOfCapacity : Obligations.InsertNeverRunsOutOfCapacity := by
  refine fun s hv hlen => ⟨_, exec_insert_of_fits hv hlen, rfl, fun hfull hm => ?_⟩
  have hall : ∀ p ∈ s.positions, bitAt s.bits p = true := fun p hp => hfull p (positions_lt hm hp)
  rw [insertBits_of_allOne hall]
  rfl

end Sys2Proof.Machine
end

section
/-! The lifetime of a filter (R31, R36, R167, R169): within it the filter's registers stay, its bits only rise, so a key once
inserted is found by every later `INSERT` and `QUERY`. -/

namespace Sys2Proof.Machine

/-- The filter of t is that of s, with the bits of s and perhaps more (R31, R36). -/
structure State.FilterGrows (s t : State) : Prop where
  params : t.params = s.params
  valid : t.valid = s.valid
  numBits : t.numBits = s.numBits
  numHash : t.numHash = s.numHash
  fast : t.fast = s.fast
  bits : ∀ p, bitAt s.bits p = true → bitAt t.bits p = true

theorem State.FilterGrows.refl (s : State) : s.FilterGrows s := ⟨rfl, rfl, rfl, rfl, rfl, fun _ => id⟩

theorem State.FilterGrows.trans {s t u : State} (h : s.FilterGrows t) (h' : t.FilterGrows u) : s.FilterGrows u :=
  ⟨h'.params.trans h.params, h'.valid.trans h.valid, h'.numBits.trans h.numBits, h'.numHash.trans h.numHash,
    h'.fast.trans h.fast, fun p hp => h'.bits p (h.bits p hp)⟩

/-- The key has in the later state the positions it had before (R165). -/
theorem State.FilterGrows.positions {s t : State} (h : s.FilterGrows t) (hkey : t.key = s.key) : t.positions = s.positions :=
  State.positions_congr hkey h.numBits h.numHash h.fast

/-- A step that does not end the filter leaves it, with its bits or more. -/
theorem step_filterGrows {s t : State} (h : step s = .next t) (hend : ¬ endsFilter s t) : s.FilterGrows t := by
  have hreset : s.resetNext = false := Bool.eq_false_of_not_eq_true fun hr => hend (.inl hr)
  cases hm : s.hostMoves with
  | true =>
    obtain ⟨hp, _, hnb, hnh, hf, hv, _, hb⟩ := step_hostTurn_frame h hm hreset
    exact ⟨hp, hv, hnb, hnh, hf, fun p => by rw [hb]; exact id⟩
  | false =>
    rcases step_blockTurn_cases h hm with ⟨_, _, _, rfl⟩ | ⟨_, _, _, _, rfl⟩ | ⟨_, _, _, rfl⟩ |
      ⟨i, _, _, _, hn, hc, _, _, _, _, rfl⟩
    · exact ⟨rfl, rfl, rfl, rfl, rfl, fun _ => id⟩
    · exact ⟨rfl, rfl, rfl, rfl, rfl, fun _ => id⟩
    · exact ⟨rfl, rfl, rfl, rfl, rfl, fun p hp => (bitAt_insertBits _ _ p).mpr (.inl hp)⟩
    · exact absurd (.inr ⟨i, hn, hc, rfl⟩) hend

/-- So does a run within the filter's lifetime (R169). -/
theorem SameFilterRun.filterGrows {s t : State} (h : SameFilterRun s t) : s.FilterGrows t := by
  induction h with
  | refl => exact .refl _
  | step _ hstep hend ih => exact ih.trans (step_filterGrows hstep hend)

section
variable {s t u : State}

/-- An `INSERT` that completed with `OK` had a filter and a key that fits, and ran its loop (R166). -/
theorem exec_insert_ok (h : exec .insert s = .next t) (hok : t.err = .ok) :
    s.valid = true ∧ unsigned s.keyLen ≤ s.params.keyMax ∧
      t = { s with
        bits := (insertBits s.bits s.positions).1, result := boolWord (insertBits s.bits s.positions).2
        err := .ok, pending := none } := by
  rcases execInsert_cases h with ⟨_, rfl⟩ | ⟨_, _, rfl⟩ | ⟨hv, hlen, ht⟩
  · cases hok
  · cases hok
  · exact ⟨hv, State.keyTooLong_eq_false_iff.mp hlen, ht⟩

/-- It leaves the filter, with its bits or more (R166). -/
theorem exec_insert_ok_filterGrows (h : exec .insert s = .next t) (hok : t.err = .ok) : s.FilterGrows t := by
  obtain ⟨_, _, rfl⟩ := exec_insert_ok h hok
  exact ⟨rfl, rfl, rfl, rfl, rfl, fun p hp => (bitAt_insertBits _ _ p).mpr (.inl hp)⟩

/-- After it the positions of the key hold 1 (R167). -/
theorem exec_insert_ok_positions (h : exec .insert s = .next t) (hok : t.err = .ok) :
    ∀ p ∈ s.positions, bitAt t.bits p = true := by
  obtain ⟨_, _, rfl⟩ := exec_insert_ok h hok
  exact fun p hp => (bitAt_insertBits _ _ p).mpr (.inr hp)

/-- A key inserted with `OK`, in the buffer again later in the filter's lifetime, passes the checks and has only bits that are
1 (R167, R169). -/
theorem insertedKey_present (h : exec .insert s = .next t) (hok : t.err = .ok) (hrun : SameFilterRun t u)
    (hkey : u.key = s.key) :
    u.valid = true ∧ unsigned u.keyLen ≤ u.params.keyMax ∧ ∀ p ∈ u.positions, bitAt u.bits p = true := by
  obtain ⟨hv, hlen, _⟩ := exec_insert_ok h hok
  have hlater := hrun.filterGrows
  have hfilter := (exec_insert_ok_filterGrows h hok).trans hlater
  refine ⟨hfilter.valid.trans hv, ?_, fun p hp => ?_⟩
  · rw [← State.key_length, hkey, State.key_length, hfilter.params]
    exact hlen
  · rw [hfilter.positions hkey] at hp
    exact hlater.bits p (exec_insert_ok_positions h hok p hp)

/-- A filter with k ≥ 1 has a position for every key (R165). -/
theorem State.exists_position (hk : 1 ≤ unsigned s.numHash) : ∃ p, p ∈ s.positions :=
  List.exists_mem_of_length_pos (by rw [State.positions, positions_length]; exact hk)

end

/-- Settles O54: the inserted key is present later, and on an empty filter its first position holds 0. -/
theorem secondInsertReturnsFalse : Obligations.SecondInsertReturnsFalse := by
  refine ⟨fun s t h hok => ⟨exec_insert_ok_positions h hok, fun hk hempty => ?_⟩, fun s t u h hok hrun hkey => ?_⟩
  · obtain ⟨_, _, rfl⟩ := exec_insert_ok h hok
    obtain ⟨p, hp⟩ := State.exists_position hk
    exact congrArg boolWord ((insertBits_changed_iff _ _).mpr ⟨p, hp, hempty p⟩)
  · obtain ⟨hv, hlen, hall⟩ := insertedKey_present h hok hrun hkey
    exact ⟨_, exec_insert_of_allOne hv hlen hall, rfl, rfl, rfl⟩

/-- Settles O55: the inserted key is present later, in either mode. -/
theorem noFalseNegatives : Obligations.NoFalseNegatives := by
  intro s t u h hok hrun hkey
  obtain ⟨hv, hlen, hall⟩ := insertedKey_present h hok hrun hkey
  exact ⟨_, exec_query_of_allOne hv hlen hall, rfl, rfl⟩

/-- Settles O56: a construction writes k ≥ 1 and no bit, so the key has a position and it holds 0. -/
theorem freshFilterContainsNothing : Obligations.FreshFilterContainsNothing := by
  intro i s t kb l _ hi h hok hlen
  rcases exec_cases h with ⟨c, hc, rfl⟩ | ⟨hr, _⟩ | ⟨rfl, _⟩ | ⟨f, m, k, _, _, hk0, _, hk1, rfl⟩
  · exact absurd hok hc
  · rcases hr with rfl | rfl | rfl <;> cases hi
  · cases hi
  · have hk : 1 ≤ unsigned (BitVec.ofInt 32 k) := by
      rw [unsigned, toNat_ofInt_word hk0 hk1]
      omega
    obtain ⟨p, hp⟩ := State.exists_position (s := { (s.construct m k f).complete .ok with keybuf := kb, keyLen := l }) hk
    exact exec_query_of_zero rfl hlen ⟨p, hp, bitAt_nil p⟩

end Sys2Proof.Machine
end

section
/-! The completion codes (R190 to R198): which code each command ends with, as the first of its checks that fails. -/

namespace Sys2Proof.Machine

/-! ### The code of a command -/

/-- The code of the first check that fails (R198), for each command in the order of its rule (R120, R121, R140, R144, R166, R168);
`exec_completes` ties it to `exec`. -/
def State.completionCode (s : State) : Instr → Code
  | .hash => if s.keyTooLong then .keyTooLong else .ok
  | .fmix => .ok
  | .create _ =>
    if s.arg0.toInt ≤ 0 ∨ s.arg1.toInt ≤ 0 then .invalidArgument
    else if (s.params.mMax : Int) < s.arg0.toInt then .capacityExceeded
    else .ok
  | .createCap _ =>
    let mk := Params.sizingOf s.params s.arg0.toInt (s.arg3 ++ s.arg2)
    if s.arg0.toInt ≤ 0 then .invalidArgument
    else if inOpenUnit (s.arg3 ++ s.arg2) = false then .invalidArgument
    else if mk.1 ≤ 0 ∨ mk.2 ≤ 0 then .invalidArgument
    else if (s.params.mMax : Int) < mk.1 ∨ kMax < mk.2 then .capacityExceeded
    else .ok
  | .insert | .query => if s.valid = false then .noFilter else if s.keyTooLong then .keyTooLong else .ok

/-- The outcome is a next state with this code in `STATUS.ERR` (R190). -/
def EndsWith (o : Host.Outcome State Fault Refusal) (c : Code) : Prop := ∃ t, o = .next t ∧ t.err = c

theorem raise_endsWith (c : Code) (s : State) : EndsWith (raise c s) c := ⟨_, raise_eq c s, rfl⟩

theorem done_endsWith (s : State) : EndsWith (done s) .ok := ⟨_, done_eq s, rfl⟩

/-- A check before the rest of a command is the same check before the rest of its code. -/
theorem check_endsWith {p : Prop} [Decidable p] {s : State} {o : Host.Outcome State Fault Refusal} (c : Code) {d : Code}
    (h : EndsWith o d) : EndsWith (if p then raise c s else o) (if p then c else d) := by
  split
  · exact raise_endsWith c s
  · exact h

/-- Every command completes, with the code of the first check that fails (R190, R198). -/
theorem exec_completes (i : Instr) (s : State) : EndsWith (exec i s) (s.completionCode i) := by
  cases i with
  | hash => exact check_endsWith _ (done_endsWith _)
  | fmix => exact done_endsWith _
  | create f => exact check_endsWith _ (check_endsWith _ (done_endsWith _))
  | createCap f =>
    exact check_endsWith _ (check_endsWith _ (check_endsWith _ (check_endsWith _ (done_endsWith _))))
  | insert => exact check_endsWith _ (check_endsWith _ (done_endsWith _))
  | query => exact check_endsWith _ (check_endsWith _ (done_endsWith _))

theorem exec_err {i : Instr} {s t : State} (h : exec i s = .next t) : t.err = s.completionCode i := by
  obtain ⟨u, hu, herr⟩ := exec_completes i s
  cases hu.symm.trans h
  exact herr

/-- Every word completes (R190, R227). -/
theorem runCommand_completes (w : Word) (s : State) : ∃ t, runCommand w s = .next t := by
  cases hd : decode w with
  | command i =>
    obtain ⟨t, ht, _⟩ := exec_completes i s
    exact ⟨t, (runCommand_command hd s).trans ht⟩
  | illegal why => exact ⟨_, runCommand_illegal hd s⟩

/-! ### The codes and their numbers -/

/-- The numbers of R190 tell the codes apart. -/
theorem Code.number_inj {c d : Code} : c.number = d.number ↔ c = d := by
  cases c <;> cases d <;> decide

/-- No number above 5 is written (R190). -/
theorem Code.number_le (c : Code) : c.number.toNat ≤ 5 := by
  cases c <;> decide

/-- Settles O18: every word completes, the codes' numbers tell them apart, and a command leaves the operands. -/
theorem completionCodeNumbers : Obligations.CompletionCodeNumbers := by
  intro w s
  obtain ⟨t, ht⟩ := runCommand_completes w s
  obtain ⟨_, _, _, hnumber, _⟩ := t.statusWord_fields
  have hoperand {r : RegName} (hr : r ∈ operandRegs) : t.readReg r = s.readReg r := runCommand_readReg ht hr
  have hbusy : t.busy = false := by rw [State.busy, runCommand_pending ht]; rfl
  refine ⟨t, ht, hbusy, ?_⟩
  rw [hnumber]
  exact ⟨Code.number_inj.symm, Code.number_inj.symm, Code.number_inj.symm, Code.number_inj.symm,
    Code.number_inj.symm, Code.number_inj.symm, t.err.number_le, hoperand (r := .arg0) (by decide),
    hoperand (r := .arg1) (by decide), hoperand (r := .arg2) (by decide), hoperand (r := .arg3) (by decide),
    hoperand (r := .keyLen) (by decide)⟩

/-! ### Which command can end with which code -/

/-- No command ends with a code that R196 does not list for it. -/
theorem State.completionCode_mem_codes (s : State) (i : Instr) : s.completionCode i ∈ Instr.codes i := by
  cases i with
  | fmix => exact List.mem_singleton_self _
  | _ =>
    simp only [State.completionCode, Instr.codes]
    split_ifs <;> decide

theorem State.completionCode_ne {i : Instr} {c : Code} (s : State) (hc : c ∉ Instr.codes i) : s.completionCode i ≠ c :=
  fun h => hc (h ▸ s.completionCode_mem_codes i)

/-- A state from which every command completes with `OK`. -/
def readyState : State :=
  { State.reset with
    params := { mMax := 1, keyMax := 4, sizing := .other [⟨1, 1, 1, 1⟩, ⟨2, 1, 2, 1⟩] }
    valid := true, arg0 := 1, arg1 := 1, arg2 := 1 }

/-- A state from which every command that can end with this code does. -/
def stateEndingWith : Code → State
  | .ok => readyState
  | .invalidArgument => { readyState with arg0 := 0 }
  | .noFilter => { readyState with valid := false }
  | .capacityExceeded => { readyState with arg0 := 2 }
  | .illegalCommand => readyState
  | .keyTooLong => { readyState with keyLen := 5 }

/-- Every code that R196 lists for a command is one it can end with. -/
theorem completionCode_stateEndingWith (i : Instr) : ∀ c ∈ Instr.codes i, (stateEndingWith c).completionCode i = c := by
  cases i with
  | hash => decide
  | fmix => decide
  | create f => revert f; decide
  | createCap f => revert f; decide
  | insert => decide
  | query => decide

/-- Settles O19: a command's code is on its list, and each code on the list is reached from a state given for it. -/
theorem codesPerCommandComplete : Obligations.CodesPerCommandComplete := by
  refine ⟨fun i c => ⟨?_, fun hc => ?_⟩, fun w why s t hd h => ?_⟩
  · rintro ⟨s, t, h, rfl⟩
    exact exec_err h ▸ s.completionCode_mem_codes i
  · obtain ⟨t, ht, herr⟩ := exec_completes i (stateEndingWith c)
    exact ⟨_, t, ht, herr.trans (completionCode_stateEndingWith i c hc)⟩
  · cases (runCommand_illegal hd s).symm.trans h
    rfl

/-! ### Errors are precise -/

/-- A command that ends with an error changes `STATUS` alone (R197). -/
theorem exec_error_eq {i : Instr} {s t : State} (h : exec i s = .next t) (herr : t.err ≠ .ok) : t = s.complete t.err := by
  rcases exec_cases h with ⟨c, _, rfl⟩ | ⟨_, _, rfl⟩ | ⟨_, _, _, rfl⟩ | ⟨_, _, _, _, _, _, _, _, rfl⟩
  · rfl
  all_goals exact absurd rfl herr

/-- Settles O20: of a command by what it can do, of any other word by its one outcome. -/
theorem errorChangesOnlyStatus : Obligations.ErrorChangesOnlyStatus := by
  intro w s t h herr
  rcases runCommand_cases h with ⟨i, _, he⟩ | ⟨_, _, rfl⟩
  · exact exec_error_eq he herr
  · rfl

/-- A command one of whose checks fails: its whole next state (R197). -/
theorem exec_of_completionCode {i : Instr} {s : State} {c : Code} (hc : c ≠ .ok) (hcode : s.completionCode i = c) :
    exec i s = .next { s with err := c, pending := none } := by
  obtain ⟨t, ht, herr⟩ := exec_completes i s
  obtain rfl : t.err = c := herr.trans hcode
  rw [ht]
  exact congrArg _ (exec_error_eq ht hc)

/-! ### When each code is raised -/

section
variable {p : Prop} [Decidable p] {c d e : Code}

/-- A check gives its own code when it fails, or when a later one does with the same code. -/
theorem check_eq_self_iff : (if p then c else d) = c ↔ p ∨ d = c := by
  rw [ite_eq_left_iff, or_iff_not_imp_left]

/-- A check gives way to the rest for every other code. -/
theorem check_eq_other_iff (hne : c ≠ e) : (if p then c else d) = e ↔ ¬ p ∧ d = e := by
  simp [ite_eq_iff, hne]

end

section
variable (s : State) (f : Bool)

/-- `CREATE` raises `INVALID_ARGUMENT` for M or k (R140, R191). -/
theorem State.create_code_invalidArgument_iff :
    s.completionCode (.create f) = .invalidArgument ↔ s.arg0.toInt ≤ 0 ∨ s.arg1.toInt ≤ 0 := by
  rw [State.completionCode, check_eq_self_iff, check_eq_other_iff (by decide)]
  simp

/-- `CREATE_CAP` raises `INVALID_ARGUMENT` by any of its first three checks (R144, R191). -/
theorem State.createCap_code_invalidArgument_iff :
    s.completionCode (.createCap f) = .invalidArgument ↔
      s.arg0.toInt ≤ 0 ∨ inOpenUnit (s.arg3 ++ s.arg2) = false ∨
        (Params.sizingOf s.params s.arg0.toInt (s.arg3 ++ s.arg2)).1 ≤ 0 ∨
        (Params.sizingOf s.params s.arg0.toInt (s.arg3 ++ s.arg2)).2 ≤ 0 := by
  rw [State.completionCode, check_eq_self_iff, check_eq_self_iff, check_eq_self_iff, check_eq_other_iff (by decide)]
  simp

/-- `CREATE` raises `CAPACITY_EXCEEDED` for M alone, past the checks of R191 (R140, R193). -/
theorem State.create_code_capacityExceeded_iff :
    s.completionCode (.create f) = .capacityExceeded ↔
      0 < s.arg1.toInt ∧ 0 < s.arg0.toInt ∧ (s.params.mMax : Int) < s.arg0.toInt := by
  rw [State.completionCode, check_eq_other_iff (by decide), check_eq_self_iff]
  simp only [reduceCtorEq, or_false]
  omega

/-- `CREATE_CAP` raises `CAPACITY_EXCEEDED` for the derived pair, past the checks of R191 (R144, R147, R193). -/
theorem State.createCap_code_capacityExceeded_iff {m k : Int}
    (hmk : Params.sizingOf s.params s.arg0.toInt (s.arg3 ++ s.arg2) = (m, k)) :
    s.completionCode (.createCap f) = .capacityExceeded ↔
      0 < s.arg0.toInt ∧ inOpenUnit (s.arg3 ++ s.arg2) = true ∧ 0 < m ∧ 0 < k ∧ ((s.params.mMax : Int) < m ∨ kMax < k) := by
  rw [State.completionCode, hmk, check_eq_other_iff (by decide), check_eq_other_iff (by decide),
    check_eq_other_iff (by decide), check_eq_self_iff]
  simp [and_assoc]

/-- `INSERT` and `QUERY` make the same two checks (R166, R168). -/
theorem State.insert_query_code {i : Instr} (hi : i = .insert ∨ i = .query) :
    s.completionCode i = if s.valid = false then .noFilter else if s.keyTooLong then .keyTooLong else .ok := by
  rcases hi with rfl | rfl <;> rfl

/-- The filter is checked first (R192). -/
theorem State.insert_query_code_noFilter_iff {i : Instr} (hi : i = .insert ∨ i = .query) :
    s.completionCode i = .noFilter ↔ s.valid = false := by
  rw [s.insert_query_code hi, check_eq_self_iff, check_eq_other_iff (by decide)]
  simp

/-- The length of the key is checked once there is a filter (R195, R198). -/
theorem State.insert_query_code_keyTooLong_iff {i : Instr} (hi : i = .insert ∨ i = .query) :
    s.completionCode i = .keyTooLong ↔ s.valid = true ∧ s.params.keyMax < unsigned s.keyLen := by
  rw [s.insert_query_code hi, check_eq_other_iff (by decide), check_eq_self_iff, State.keyTooLong_iff]
  simp

/-- `HASH` checks the length of the key alone (R195). -/
theorem State.hash_code_keyTooLong_iff :
    s.completionCode .hash = .keyTooLong ↔ s.params.keyMax < unsigned s.keyLen := by
  rw [State.completionCode, check_eq_self_iff, State.keyTooLong_iff]
  simp

end

/-- Settles O21: the checks of the two constructions; R196 lists the code for no other command. -/
theorem invalidArgumentExactlyWhen : Obligations.InvalidArgumentExactlyWhen := by
  intro i s t h
  rw [exec_err h]
  cases i with
  | create f => simp [State.create_code_invalidArgument_iff]
  | createCap f => simp [State.createCap_code_invalidArgument_iff]
  | _ => exact iff_of_false (s.completionCode_ne (by simp [Instr.codes])) (by simp)

/-- Settles O22: the first check of `INSERT` and `QUERY`; R196 lists the code for no other command. -/
theorem noFilterExactlyWhen : Obligations.NoFilterExactlyWhen := by
  intro i s t h
  rw [exec_err h]
  cases i with
  | insert => simp [State.insert_query_code_noFilter_iff]
  | query => simp [State.insert_query_code_noFilter_iff]
  | _ => exact iff_of_false (s.completionCode_ne (by simp [Instr.codes])) (by simp)

/-- Settles O23: the last check of the two constructions; R196 lists the code for no other command. -/
theorem capacityExceededExactlyWhen : Obligations.CapacityExceededExactlyWhen := by
  intro i s t h
  rw [exec_err h]
  cases i with
  | create f => simp [State.create_code_capacityExceeded_iff]
  | createCap f =>
    obtain ⟨m, k, hmk⟩ : ∃ m k, Params.sizingOf s.params s.arg0.toInt (s.arg3 ++ s.arg2) = (m, k) := ⟨_, _, rfl⟩
    simp [State.createCap_code_capacityExceeded_iff s f hmk, hmk, kMax]
  | _ => exact iff_of_false (s.completionCode_ne (by simp [Instr.codes])) (by simp)

/-- Settles O24: the one check of `HASH` and the second of `INSERT` and `QUERY`; R196 lists the code for no other command. -/
theorem keyTooLongExactlyWhen : Obligations.KeyTooLongExactlyWhen := by
  intro i s t h
  rw [exec_err h]
  cases i with
  | hash => simp [State.hash_code_keyTooLong_iff]
  | insert => simp [State.insert_query_code_keyTooLong_iff]
  | query => simp [State.insert_query_code_keyTooLong_iff]
  | _ => exact iff_of_false (s.completionCode_ne (by simp [Instr.codes])) (by simp)

/-- Settles O25: in each clause the earlier condition alone decides the code. -/
theorem checksInOrder : Obligations.ChecksInOrder := by
  refine ⟨fun w why s hd => runCommand_illegal hd s, fun i s hi hv _ => exec_insert_query_of_noFilter hi hv,
    fun s hlen => exec_hash_of_tooLong hlen, fun f s _ hk => exec_create_of_nonpos (.inr hk), fun f s m k hbad hmk _ => ?_⟩
  refine exec_of_completionCode (by decide) ((s.createCap_code_invalidArgument_iff f).mpr ?_)
  rwa [hmk]

end Sys2Proof.Machine
end

section
/-! Whose turn a step is (R22, R229), and that every command completes (R227). -/

namespace Sys2Proof.Machine

/-! ### The two turns of a step -/

/-- When the host moves, a step serves it, from a state that differs in the schedule at most (R229). -/
theorem step_of_hostMoves {s : State} (hm : s.hostMoves = true) : ∃ sch, step s = serveHost { s with schedule := sch } := by
  cases hb : s.busy with
  | false => exact ⟨s.schedule, step_idle hb⟩
  | true =>
    have ha : s.nextAgent = .host := by simpa [hb] using s.hostMoves_iff.mp hm
    exact ⟨s.schedule.tail, step_busy_host hb ha⟩

/-- When the host does not move, a step runs a pending word (R229). -/
theorem step_of_blockMoves {s : State} (hm : s.hostMoves = false) : ∃ w, step s = runCommand w s.passTurn := by
  cases hp : s.pending with
  | none => simp [State.hostMoves, hp] at hm
  | some w =>
    cases ha : s.nextAgent with
    | host => simp [State.hostMoves, hp, ha] at hm
    | block => exact ⟨w, step_busy_block hp ha⟩

/-! ### A host event is served, or lies outside the address map -/

/-- An offset has a place exactly when the port can carry it (R50, R58). -/
theorem exists_placeOf_iff_offsetInBlock {p : Params} {off : Nat} :
    (∃ pl, placeOf p off = .ok pl) ↔ offsetInBlock p off = true :=
  (exists_placeOf_iff p off).trans offsetInBlock_iff.symm

/-- An offset without a place is one the port cannot carry (R50, R58). -/
theorem offsetInBlock_of_placeOf_error {p : Params} {off : Nat} {r : Refusal} (h : placeOf p off = .error r) :
    offsetInBlock p off = false := by
  refine Bool.eq_false_of_not_eq_true fun hin => ?_
  obtain ⟨pl, hp⟩ := exists_placeOf_iff_offsetInBlock.mpr hin
  cases h.symm.trans hp

/-- The host's turn answers with a next state, or refuses an event the port cannot carry (R50, R58, U13). -/
theorem serveHost_answers (s : State) : (∃ t, serveHost s = .next t) ∨
    ∃ e es, s.inbox = e :: es ∧ e.wellFormed s.params = false ∧ ∃ r, serveHost s = .refused r := by
  cases hi : s.inbox with
  | nil => exact .inl ⟨s, by simp [serveHost, hi]⟩
  | cons e es =>
    cases e with
    | write off v =>
      cases hp : placeOf s.params off with
      | ok pl =>
        obtain ⟨t, ht⟩ := (hostWrite_served_iff (s.setInbox es) off v).mpr ⟨pl, hp⟩
        exact .inl ⟨t, by simpa only [serveHost, hi] using ht⟩
      | error r =>
        exact .inr ⟨_, es, rfl, offsetInBlock_of_placeOf_error hp, r, by simp [serveHost, hi, hostWrite, hp]⟩
    | read off =>
      cases hp : placeOf s.params off with
      | ok pl => exact .inl ⟨(s.setInbox es).readAny pl, by simp [serveHost, hi, hostRead, hp]⟩
      | error r =>
        exact .inr ⟨_, es, rfl, offsetInBlock_of_placeOf_error hp, r, by simp [serveHost, hi, hostRead, hp]⟩
    | wait => exact .inl ⟨_, serveHost_wait hi⟩
    | reset => exact .inl ⟨_, serveHost_reset hi⟩

/-- Settles O6: a command ends with one of the six codes; the host's turn answers each event the port can carry, and the block's
turn runs a word. -/
theorem everyCommandCompletes : Obligations.EveryCommandCompletes := by
  refine ⟨fun w s => ?_, fun s => ?_⟩
  · obtain ⟨t, ht⟩ := runCommand_completes w s
    exact ⟨t, ht, by rw [State.busy, runCommand_pending ht]; rfl, t.err.number_le⟩
  · cases hm : s.hostMoves with
    | true =>
      obtain ⟨sch, hs⟩ := step_of_hostMoves hm
      rw [hs]
      exact (serveHost_answers { s with schedule := sch }).imp_right fun hrefused => ⟨rfl, hrefused⟩
    | false =>
      obtain ⟨w, hs⟩ := step_of_blockMoves hm
      rw [hs]
      exact .inl (runCommand_completes w s.passTurn)

end Sys2Proof.Machine
end

section
/-! The two phases of a command against the atomic model (R229): no command reads the host's side of the state, so the turns the
schedule gives a waiting host change nothing of the outcome. -/

namespace Sys2Proof.Machine

/-! ### No command reads the host's side -/

/-- The model's own fields of the host's side (log entries 1, 3 and 14), replaced. -/
def State.setHostSide (s : State) (es : List HostEvent) (sch : List Agent) (d : Word) : State :=
  { s with inbox := es, schedule := sch, readData := d }

/-- A command reads neither the host's side nor the pending word: it does the same beside any other and keeps the host's side. -/
theorem exec_hostSide_unread {i : Instr} {s t : State} (p : Option Word) (es : List HostEvent) (sch : List Agent) (d : Word)
    (h : exec i s = .next t) :
    exec i { s.setHostSide es sch d with pending := p } = .next (t.setHostSide es sch d) := by
  have hraise (c : Code) (_ : c ≠ .ok) (ht : t = s.complete c) :
      t.setHostSide es sch d = State.complete { s.setHostSide es sch d with pending := p } c := by
    subst ht; rfl
  cases i with
  | hash => exact execHash_reads h rfl rfl hraise (by rintro _ rfl; rfl)
  | fmix => exact execFmix_reads h rfl rfl (by rintro _ rfl; rfl)
  | create f => exact execCreate_reads h rfl rfl rfl hraise (by rintro _ _ rfl; rfl)
  | createCap f => exact execCreateCap_reads h rfl rfl rfl rfl hraise (by rintro _ _ rfl; rfl)
  | insert => exact execInsert_reads h rfl rfl rfl rfl hraise (by rintro _ _ rfl; rfl)
  | query => exact execQuery_reads h rfl rfl rfl rfl hraise (by rintro _ rfl; rfl)

/-- The same of the run of a word, decodable or not. -/
theorem runCommand_hostSide_unread {w : Word} {s t : State} (p : Option Word) (es : List HostEvent) (sch : List Agent) (d : Word)
    (h : runCommand w s = .next t) :
    runCommand w { s.setHostSide es sch d with pending := p } = .next (t.setHostSide es sch d) := by
  rcases runCommand_cases h with ⟨i, hd, he⟩ | ⟨why, hd, rfl⟩
  · exact (runCommand_command hd _).trans (exec_hostSide_unread p es sch d he)
  · exact runCommand_illegal hd _

/-! ### The schedule while the host waits -/

/-- While a command is pending, a host that waits uses up its turns and changes nothing but what it read (R93). -/
theorem run_wait_busy {s : State} {es : List HostEvent} (hb : s.busy = true) (hi : s.inbox = .wait :: es) :
    ∃ n d, Host.Core.run Sys2Proof.core n s =
      .next (s.setHostSide (.wait :: es) (s.schedule.dropWhile (· == .host)) d) := by
  induction hsch : s.schedule generalizing s with
  | nil => exact ⟨0, s.readData, by rw [← hi, List.dropWhile_nil, ← hsch]; rfl⟩
  | cons a sch ih =>
    cases a with
    | block => exact ⟨0, s.readData, by rw [← hi, List.dropWhile_cons_of_neg (by decide), ← hsch]; rfl⟩
    | host =>
      have ha : s.nextAgent = .host := by simp [State.nextAgent, hsch]
      have hstep : step s = .next (s.passTurn.setReadData s.statusWord) := by
        rw [step_busy_host hb ha, serveHost_wait (s := s.passTurn) hi, State.passTurn_busy, hb]; rfl
      obtain ⟨n, d, hrun⟩ := ih (s := s.passTurn.setReadData s.statusWord) hb hi (by simp [hsch])
      exact ⟨n + 1, d, (run_step hstep n).trans hrun⟩

/-- After the host's turns at its head are used up, a schedule names the block (R229). -/
theorem State.nextAgent_of_dropWhile_host {s : State} {sch : List Agent} (h : s.schedule = sch.dropWhile (· == .host)) :
    s.nextAgent = .block := by
  unfold State.nextAgent
  split
  · rfl
  · next a l hs =>
    have hne := List.head?_dropWhile_not (· == Agent.host) sch
    rw [← h, hs] at hne
    cases a with
    | host => simp at hne
    | block => rfl

/-- The block's turn after the host's turns runs the pending word as the atomic model runs it, beside the host's side (R229). -/
theorem step_pending_after_hostTurns {s u : State} {w : Word} (h : runCommand w s = .next u) (es : List HostEvent)
    (sch : List Agent) (d : Word) :
    step { s.setHostSide es (sch.dropWhile (· == .host)) d with pending := some w } =
      .next (u.setHostSide es (sch.dropWhile (· == .host)).tail d) :=
  (step_busy_block rfl (State.nextAgent_of_dropWhile_host rfl)).trans (runCommand_hostSide_unread (s := s) (some w) es _ d h)

/-- A `WAIT` with no command pending reads `STATUS` and is done (R93). -/
theorem step_wait_idle {s : State} {es : List HostEvent} {sch : List Agent} {d : Word} (hb : s.busy = false) :
    step (s.setHostSide (.wait :: es) sch d) = .next (s.setHostSide es sch s.statusWord) := by
  have hb' : (s.setHostSide (.wait :: es) sch d).busy = false := hb
  rw [step_idle hb', serveHost_wait rfl, hb']; rfl

/-- Settles O7: the `CMD` write makes the word pending, the waiting host's turns are used up, the block's turn does what the
atomic run does, and the `WAIT` is then served. -/
theorem twoPhaseAgreesWithAtomic : Obligations.TwoPhaseAgreesWithAtomic := by
  intro s u w es hp hi hu
  have hidle : s.busy = false := by rw [State.busy, hp]; rfl
  have hdone : u.busy = false := by rw [State.busy, runCommand_pending hu]; rfl
  have hwrite : step s = .next { s with inbox := .wait :: es, pending := some w } := step_write_reg (r := .cmd) hidle hi
  obtain ⟨n, d, hwait⟩ := run_wait_busy (s := { s with inbox := .wait :: es, pending := some w }) rfl rfl
  have hblock := step_pending_after_hostTurns hu (.wait :: es) s.schedule d
  refine ⟨n + 2 + 1, ?_⟩
  rw [run_step hwrite, run_add n 2 _ _ hwait]
  exact (run_step hblock 1).trans (run_one (step_wait_idle hdone))

end Sys2Proof.Machine
end

section
/-! The host at a busy block (R228), and the reset event (R220). -/

namespace Sys2Proof.Machine

/-! ### Transactions while `BUSY` = 1 -/

/-- A write at a place of the block, while busy, is ignored (R228). -/
theorem hostWrite_busy {s : State} {off : Nat} {pl : Place} (v : Word) (hb : s.busy = true)
    (hp : placeOf s.params off = .ok pl) : hostWrite off v s = .next s := by
  simp [hostWrite, hp, hb]

/-- A read of any place but `STATUS`, while busy, returns a free value (R228, U4). -/
theorem hostRead_busy {s : State} {off : Nat} {pl : Place} (hb : s.busy = true) (hp : placeOf s.params off = .ok pl)
    (hne : pl ≠ .reg .status) : hostRead off s = .next s.readUnspecified := by
  have hany : s.readAny pl = s.readUnspecified := by
    unfold State.readAny
    rw [if_pos hb]
    split
    · exact absurd rfl hne
    · rfl
  simp only [hostRead, hp, hany]

/-- Settles O39: each offset by the place it has; `STATUS` stands at its own offset alone. -/
theorem transactionsWhileBusy : Obligations.TransactionsWhileBusy := by
  intro s hb
  obtain ⟨hstatus, _⟩ := statusLayout
  obtain ⟨hbusy, hvalid, _, herr, _, hread⟩ := hstatus s
  refine ⟨fun off v hoff => ?_, hread, hbusy.trans hb, hvalid, herr, fun off hoff hne => ?_⟩
  · obtain ⟨pl, hp⟩ := exists_placeOf_iff_offsetInBlock.mpr hoff
    exact hostWrite_busy v hb hp
  · obtain ⟨pl, hp⟩ := exists_placeOf_iff_offsetInBlock.mpr hoff
    refine hostRead_busy hb hp ?_
    rintro rfl
    exact hne (placeOf_reg hp)

/-! ### The reset event -/

/-- After the reset event every register reads 0 (R38, R220). -/
theorem State.readReg_resetBlock (s : State) (r : RegName) : s.resetBlock.readReg r = 0 := by
  cases r
  case status => exact reset_statusWord
  all_goals rfl

/-- Settles O28: the host's turn serves the reset event, whether or not a command is pending. -/
theorem resetEventResets : Obligations.ResetEventResets := by
  intro s es hm hi
  obtain ⟨sch, hs⟩ := step_of_hostMoves hm
  exact ⟨_, hs.trans (serveHost_reset hi), rfl, rfl, rfl, State.readReg_resetBlock _, fun _ => rfl⟩

end Sys2Proof.Machine
end
